-- ==== Sys2Proof/Word.lean ====
section
/-! DEFINITION. The machine's value types and their plainest facts (00_scope R7, R8). -/

namespace Sys2Proof

/-- A 4-bit field: a register index, a key symbol or a row count (R10). -/
abbrev Nibble := BitVec 4

/-- A register, a memory cell, a timer: 8 bits, unsigned (R21, R23). -/
abbrev Byte := BitVec 8

/-- The 12-bit address field `nnn` of an instruction (R76). -/
abbrev Addr12 := BitVec 12

/-- An instruction word, and the width of `PC`, `I` and a stack slot (R25, R26, R28, R75). -/
abbrev Word := BitVec 16

end Sys2Proof
end

