-- ==== Sys2Proof/Config.lean ====
section
/-! DEFINITION. What is fixed for one machine and what is left free (00_scope R5, R6, R13): the
parameters SHIFT_SRC, BNNN_ENABLED and FONT at the spec's defaults, the fixed sizes, and the three free
constants (no body, so nothing can be proved of their values): IPF, the random bytes, and what the
input adapter and the host do between ticks. -/

namespace Sys2Proof

/-- Which register `8xy6` and `8xyE` shift (R6 `SHIFT_SRC`, R119, D5). -/
inductive ShiftSrc where
  | vx
  | vy
  deriving DecidableEq, Repr

/-- What reaches the machine between two instruction batches (60_exceptions R177, R180): a key event
of the input adapter, or the host's activation of the next tick. -/
inductive Input where
  | key (k : Nibble) (down : Bool)
  | tick
  deriving DecidableEq, Repr, Inhabited

/-- `MEM_SIZE` (R5). -/
def Config.memSize : Nat := 4096

/-- `PROG_BASE` and `RESET_PC` (R5). -/
def Config.progBase : Nat := 0x200

/-- `SHIFT_SRC`: the spec's decision D5. Log entry 5. -/
def Config.shiftSrc : ShiftSrc := .vx

/-- `BNNN_ENABLED`: the spec's decision D6. Log entry 6. -/
def Config.bnnnEnabled : Bool := true

/-- `FONT[0..79]`: the default table of 10_state R24, sixteen glyphs of five bytes, top row first
(D10). Log entry 7. -/
def Config.font : List Byte :=
  [0xF0, 0x90, 0x90, 0x90, 0xF0] ++ [0x20, 0x60, 0x20, 0x20, 0x70] ++
  [0xF0, 0x10, 0xF0, 0x80, 0xF0] ++ [0xF0, 0x10, 0xF0, 0x10, 0xF0] ++
  [0x90, 0x90, 0xF0, 0x10, 0x10] ++ [0xF0, 0x80, 0xF0, 0x10, 0xF0] ++
  [0xF0, 0x80, 0xF0, 0x90, 0xF0] ++ [0xF0, 0x10, 0x20, 0x40, 0x40] ++
  [0xF0, 0x90, 0xF0, 0x90, 0xF0] ++ [0xF0, 0x90, 0xF0, 0x10, 0xF0] ++
  [0xF0, 0x90, 0xF0, 0x90, 0x90] ++ [0xE0, 0x90, 0xE0, 0x90, 0xE0] ++
  [0xF0, 0x80, 0x80, 0x80, 0xF0] ++ [0xE0, 0x90, 0x90, 0x90, 0xE0] ++
  [0xF0, 0x80, 0xF0, 0x80, 0xF0] ++ [0xF0, 0x80, 0xF0, 0x80, 0x80]

/-- `IPF - 1`, where `IPF >= 1` is the number of instructions per tick (R6, D11 OPEN). A free value:
it has no body. Log entry 1. -/
opaque Config.ipfMinusOne : Nat

/-- The random bytes `draw8()` answers, the n-th executed `RND` taking the n-th (43_random R130, R131,
D15). A free value: it has no body. Log entry 2. -/
opaque Config.draw : Nat → Byte

/-- What arrives between ticks once everything the host has delivered is taken: the n-th such input
(60_exceptions R177; U15, U17). A free value: it has no body. Log entry 3. -/
opaque Config.input : Nat → Input

end Sys2Proof
end

