-- ==== Sys2Proof/WellFormed.lean ====
section
/-! DEFINITION. Which instructions exist. Every operand value is legal (30_encoding R78: "every value is a legal
register index"), and the operand types hold exactly those values, so the one check left is the parameter
BNNN_ENABLED: the indexed jump is an instruction only when it is true (R80, R107, D6). -/

namespace Sys2Proof

/-- Whether the instruction exists on a machine whose `BNNN_ENABLED` is `bnnn`. -/
def wellFormedWith (bnnn : Bool) : Instr → Bool
  | .jpV0 _ => bnnn
  | .cls => true
  | .ret => true
  | .jp _ => true
  | .call _ => true
  | .seImm _ _ => true
  | .sneImm _ _ => true
  | .seReg _ _ => true
  | .ldImm _ _ => true
  | .addImm _ _ => true
  | .ldReg _ _ => true
  | .orReg _ _ => true
  | .andReg _ _ => true
  | .xorReg _ _ => true
  | .addReg _ _ => true
  | .subReg _ _ => true
  | .shr _ _ => true
  | .subnReg _ _ => true
  | .shl _ _ => true
  | .sneReg _ _ => true
  | .ldI _ => true
  | .rnd _ _ => true
  | .drw _ _ _ => true
  | .skp _ => true
  | .sknp _ => true
  | .ldVxDt _ => true
  | .ldVxK _ => true
  | .ldDtVx _ => true
  | .ldStVx _ => true
  | .addIVx _ => true
  | .ldFVx _ => true
  | .ldBVx _ => true
  | .storeRegs _ => true
  | .loadRegs _ => true

/-- Whether the instruction exists on this machine. -/
def wellFormed (i : Instr) : Bool := wellFormedWith Config.bnnnEnabled i

end Sys2Proof
end

