-- ==== Sys2Proof/Decode.lean ====
section
/-! DEFINITION. From words to instructions and back (30_encoding R75 to R84). The decoder follows R79's method:
the leading nibble selects the family, the trailing nibble or byte the operation. The encoder and the
opcode map's mask and match columns are written from R77 and R80 on their own, so that the round trip and the
agreement with the map say something. -/

namespace Sys2Proof

/-- What a word decodes to: exactly one instruction, or the explicit `Unknown` tag (R79). -/
inductive Operation where
  | instr (i : Instr)
  | unknown (w : Word)
  deriving DecidableEq, Repr

/-- Why bytes are no instruction: the word is `Unknown` (R82), or fewer than two bytes are there (R75). -/
inductive DecodeReject where
  | unknown (w : Word)
  | truncated
  deriving DecidableEq, Repr

/-- Field `op`, bits 15:12 (R76). -/
def fieldOp (w : Word) : Nibble := w.extractLsb' 12 4

/-- Field `x`, bits 11:8 (R76). -/
def fieldX (w : Word) : Nibble := w.extractLsb' 8 4

/-- Field `y`, bits 7:4 (R76). -/
def fieldY (w : Word) : Nibble := w.extractLsb' 4 4

/-- Field `n`, bits 3:0 (R76). -/
def fieldN (w : Word) : Nibble := w.extractLsb' 0 4

/-- Field `kk`, bits 7:0 (R76). -/
def fieldKK (w : Word) : Byte := w.extractLsb' 0 8

/-- Field `nnn`, bits 11:0 (R76). -/
def fieldNNN (w : Word) : Addr12 := w.extractLsb' 0 12

/-- Family 0, sub-coded by the whole word (R80): every `0nnn` but two is Unknown (D7). -/
def decodeFamily0 (w : Word) : Operation :=
  if w = 0x00E0#16 then .instr .cls
  else if w = 0x00EE#16 then .instr .ret
  else .unknown w

/-- Family 8, sub-coded by the trailing nibble (R80). -/
def decodeFamily8 (w : Word) : Operation :=
  let x := fieldX w
  let y := fieldY w
  let n := fieldN w
  if n = 0x0#4 then .instr (.ldReg x y)
  else if n = 0x1#4 then .instr (.orReg x y)
  else if n = 0x2#4 then .instr (.andReg x y)
  else if n = 0x3#4 then .instr (.xorReg x y)
  else if n = 0x4#4 then .instr (.addReg x y)
  else if n = 0x5#4 then .instr (.subReg x y)
  else if n = 0x6#4 then .instr (.shr x y)
  else if n = 0x7#4 then .instr (.subnReg x y)
  else if n = 0xE#4 then .instr (.shl x y)
  else .unknown w

/-- Family E, sub-coded by the trailing byte (R80). -/
def decodeFamilyE (w : Word) : Operation :=
  let x := fieldX w
  let kk := fieldKK w
  if kk = 0x9E#8 then .instr (.skp x)
  else if kk = 0xA1#8 then .instr (.sknp x)
  else .unknown w

/-- Family F, sub-coded by the trailing byte (R80). -/
def decodeFamilyF (w : Word) : Operation :=
  let x := fieldX w
  let kk := fieldKK w
  if kk = 0x07#8 then .instr (.ldVxDt x)
  else if kk = 0x0A#8 then .instr (.ldVxK x)
  else if kk = 0x15#8 then .instr (.ldDtVx x)
  else if kk = 0x18#8 then .instr (.ldStVx x)
  else if kk = 0x1E#8 then .instr (.addIVx x)
  else if kk = 0x29#8 then .instr (.ldFVx x)
  else if kk = 0x33#8 then .instr (.ldBVx x)
  else if kk = 0x55#8 then .instr (.storeRegs x)
  else if kk = 0x65#8 then .instr (.loadRegs x)
  else .unknown w

/-- The decoder of a machine whose `BNNN_ENABLED` is `bnnn`: a pure, total function of the word (R79). -/
def decodeWordWith (bnnn : Bool) (w : Word) : Operation :=
  let op := fieldOp w
  if op = 0x0#4 then decodeFamily0 w
  else if op = 0x1#4 then .instr (.jp (fieldNNN w))
  else if op = 0x2#4 then .instr (.call (fieldNNN w))
  else if op = 0x3#4 then .instr (.seImm (fieldX w) (fieldKK w))
  else if op = 0x4#4 then .instr (.sneImm (fieldX w) (fieldKK w))
  else if op = 0x5#4 then
    if fieldN w = 0x0#4 then .instr (.seReg (fieldX w) (fieldY w)) else .unknown w
  else if op = 0x6#4 then .instr (.ldImm (fieldX w) (fieldKK w))
  else if op = 0x7#4 then .instr (.addImm (fieldX w) (fieldKK w))
  else if op = 0x8#4 then decodeFamily8 w
  else if op = 0x9#4 then
    if fieldN w = 0x0#4 then .instr (.sneReg (fieldX w) (fieldY w)) else .unknown w
  else if op = 0xA#4 then .instr (.ldI (fieldNNN w))
  else if op = 0xB#4 then
    if bnnn then .instr (.jpV0 (fieldNNN w)) else .unknown w
  else if op = 0xC#4 then .instr (.rnd (fieldX w) (fieldKK w))
  else if op = 0xD#4 then .instr (.drw (fieldX w) (fieldY w) (fieldN w))
  else if op = 0xE#4 then decodeFamilyE w
  else decodeFamilyF w

/-- This machine's decoder. -/
def decodeWord (w : Word) : Operation := decodeWordWith Config.bnnnEnabled w

/-- The word of two bytes: the byte at the lower address is bits 15:8 (20_memory R54). -/
def wordOfBytes (hi lo : Byte) : Word := hi ++ lo

/-- The two bytes of a word, the one at the lower address first (20_memory R54). -/
def bytesOfWord (w : Word) : Byte × Byte := (w.extractLsb' 8 8, w.extractLsb' 0 8)

/-- The decoder on a stream of bytes: an instruction and the bytes after it, or why there is none. -/
def decode : List Byte → Except DecodeReject (Instr × List Byte)
  | hi :: lo :: rest =>
    match decodeWord (wordOfBytes hi lo) with
    | .instr i => .ok (i, rest)
    | .unknown w => .error (.unknown w)
  | _ => .error .truncated

/-- The word that spells an instruction, by its format (R77, R80). -/
def encode : Instr → Word
  | .cls => 0x00E0#16
  | .ret => 0x00EE#16
  | .jp nnn => 0x1#4 ++ nnn
  | .call nnn => 0x2#4 ++ nnn
  | .seImm x kk => 0x3#4 ++ x ++ kk
  | .sneImm x kk => 0x4#4 ++ x ++ kk
  | .seReg x y => 0x5#4 ++ x ++ y ++ 0x0#4
  | .ldImm x kk => 0x6#4 ++ x ++ kk
  | .addImm x kk => 0x7#4 ++ x ++ kk
  | .ldReg x y => 0x8#4 ++ x ++ y ++ 0x0#4
  | .orReg x y => 0x8#4 ++ x ++ y ++ 0x1#4
  | .andReg x y => 0x8#4 ++ x ++ y ++ 0x2#4
  | .xorReg x y => 0x8#4 ++ x ++ y ++ 0x3#4
  | .addReg x y => 0x8#4 ++ x ++ y ++ 0x4#4
  | .subReg x y => 0x8#4 ++ x ++ y ++ 0x5#4
  | .shr x y => 0x8#4 ++ x ++ y ++ 0x6#4
  | .subnReg x y => 0x8#4 ++ x ++ y ++ 0x7#4
  | .shl x y => 0x8#4 ++ x ++ y ++ 0xE#4
  | .sneReg x y => 0x9#4 ++ x ++ y ++ 0x0#4
  | .ldI nnn => 0xA#4 ++ nnn
  | .jpV0 nnn => 0xB#4 ++ nnn
  | .rnd x kk => 0xC#4 ++ x ++ kk
  | .drw x y n => 0xD#4 ++ x ++ y ++ n
  | .skp x => 0xE#4 ++ x ++ 0x9E#8
  | .sknp x => 0xE#4 ++ x ++ 0xA1#8
  | .ldVxDt x => 0xF#4 ++ x ++ 0x07#8
  | .ldVxK x => 0xF#4 ++ x ++ 0x0A#8
  | .ldDtVx x => 0xF#4 ++ x ++ 0x15#8
  | .ldStVx x => 0xF#4 ++ x ++ 0x18#8
  | .addIVx x => 0xF#4 ++ x ++ 0x1E#8
  | .ldFVx x => 0xF#4 ++ x ++ 0x29#8
  | .ldBVx x => 0xF#4 ++ x ++ 0x33#8
  | .storeRegs x => 0xF#4 ++ x ++ 0x55#8
  | .loadRegs x => 0xF#4 ++ x ++ 0x65#8

/-- The bytes that spell an instruction in memory, big-endian (20_memory R54). -/
def encodeBytes (i : Instr) : List Byte :=
  [(bytesOfWord (encode i)).1, (bytesOfWord (encode i)).2]

/-- The row of the opcode map an instruction stands in: its mask and its match (R80). -/
def opcodeRow : Instr → Word × Word
  | .cls => (0xFFFF#16, 0x00E0#16)
  | .ret => (0xFFFF#16, 0x00EE#16)
  | .jp _ => (0xF000#16, 0x1000#16)
  | .call _ => (0xF000#16, 0x2000#16)
  | .seImm _ _ => (0xF000#16, 0x3000#16)
  | .sneImm _ _ => (0xF000#16, 0x4000#16)
  | .seReg _ _ => (0xF00F#16, 0x5000#16)
  | .ldImm _ _ => (0xF000#16, 0x6000#16)
  | .addImm _ _ => (0xF000#16, 0x7000#16)
  | .ldReg _ _ => (0xF00F#16, 0x8000#16)
  | .orReg _ _ => (0xF00F#16, 0x8001#16)
  | .andReg _ _ => (0xF00F#16, 0x8002#16)
  | .xorReg _ _ => (0xF00F#16, 0x8003#16)
  | .addReg _ _ => (0xF00F#16, 0x8004#16)
  | .subReg _ _ => (0xF00F#16, 0x8005#16)
  | .shr _ _ => (0xF00F#16, 0x8006#16)
  | .subnReg _ _ => (0xF00F#16, 0x8007#16)
  | .shl _ _ => (0xF00F#16, 0x800E#16)
  | .sneReg _ _ => (0xF00F#16, 0x9000#16)
  | .ldI _ => (0xF000#16, 0xA000#16)
  | .jpV0 _ => (0xF000#16, 0xB000#16)
  | .rnd _ _ => (0xF000#16, 0xC000#16)
  | .drw _ _ _ => (0xF000#16, 0xD000#16)
  | .skp _ => (0xF0FF#16, 0xE09E#16)
  | .sknp _ => (0xF0FF#16, 0xE0A1#16)
  | .ldVxDt _ => (0xF0FF#16, 0xF007#16)
  | .ldVxK _ => (0xF0FF#16, 0xF00A#16)
  | .ldDtVx _ => (0xF0FF#16, 0xF015#16)
  | .ldStVx _ => (0xF0FF#16, 0xF018#16)
  | .addIVx _ => (0xF0FF#16, 0xF01E#16)
  | .ldFVx _ => (0xF0FF#16, 0xF029#16)
  | .ldBVx _ => (0xF0FF#16, 0xF033#16)
  | .storeRegs _ => (0xF0FF#16, 0xF055#16)
  | .loadRegs _ => (0xF0FF#16, 0xF065#16)

/-- Whether a word is in the row of `i`: `w & mask = match` (R80). -/
def inRowOf (i : Instr) (w : Word) : Prop := w &&& (opcodeRow i).1 = (opcodeRow i).2

/-- The instruction the decoder reads from an instruction word numbered as spec/opcode_table.json numbers it
(bit 0 the least significant bit of the one word), laid out big-endian as memory holds it. -/
def decodeTableWord (nbits w : Nat) : Option Instr :=
  let bytes := bytesOfWord (BitVec.ofNat 16 (w % 2 ^ nbits))
  match decode [bytes.1, bytes.2] with
  | .ok (i, _) => some i
  | .error _ => none

end Sys2Proof
end

