-- ==== Sys2Proof/Machine/State.lean ====
section
/-! DEFINITION. The machine's state (10_state R20), its reset value (R38), and why a step may stop. -/

namespace Sys2Proof.Machine

/-- `RUN`: the two states of the cycle driver (10_state R33, 60_exceptions R175). -/
inductive RunState where
  | running
  | waitingForKey
  deriving DecidableEq, Repr

/-- One record of the error log (10_state R34, 60_exceptions R161). -/
inductive ErrorRecord where
  /-- An instruction word that spells no instruction. -/
  | unknown (w : Word)
  /-- `CALL` with sixteen return addresses held. -/
  | stackOverflow
  /-- `RET` with none held. -/
  | stackUnderflow
  /-- `Load` of an image longer than 3584 bytes. -/
  | programTooLarge
  deriving DecidableEq, Repr

/-- Where the cycle driver is: inside a tick's instruction batch, or between two ticks, where key events
land (60_exceptions R172, R177). The model's own bookkeeping, log entry 4. -/
inductive Phase where
  | gap
  | batch
  deriving DecidableEq, Repr

/-- The framebuffer: 32 rows of 64 cells, row 0 at the top, column 0 at the left (10_state R32). -/
abbrev Framebuffer := Vector (Vector Bool 64) 32

/-- What the output ports `frame` and `st` carry at the end of a tick (60_exceptions R178 to R180). -/
structure TickOutput where
  frame : Framebuffer
  st : Byte
  deriving DecidableEq, Repr

/-- Why a step stops the machine. NO event of this machine stops it: no memory access faults (20_memory R52), and
the four errors of the closed taxonomy are recorded and stepped over (60_exceptions R160, R161). So there is no
constructor, nothing raises a fault, and no claim can rest on one; log entry 9 says what would make this unsafe. -/
inductive Fault
  deriving DecidableEq, Repr

/-- Why the model gives no next state. -/
inductive Refusal where
  /-- An instruction that has no meaning yet; raised by no arm of `exec`. Safe. -/
  | notModelled (mnemonic : String)
  /-- `Load` at a moment for which the spec gives it no meaning: after the first tick has begun, or a second time
  (70_reset_and_hazards R196, U12). Raised by the host's operation `load` only, never by an instruction or by `step`.
  Safe: nothing can be proved of such a load. -/
  | loadOutsideBoot
  deriving DecidableEq, Repr

/-- Everything 10_state R20 gives the core, then the model's own bookkeeping. -/
structure State where
  /-- `MEM`: the cells that differ from their reset contents, addresses strictly rising (R23, R38). -/
  mem : List Host.Cell
  /-- `V[0..15]`; `v[15]` is `VF` (R21, R22). -/
  v : Vector Byte 16
  /-- `I`, the index register (R25). -/
  i : Word
  /-- `PC` (R26, R27). -/
  pc : Word
  /-- `SP`: how many return addresses are held, 0..16 (R28). -/
  sp : Fin 17
  /-- `STK[0..15]` (R28). -/
  stk : Vector Word 16
  /-- `DT`, the delay timer (R29). -/
  dt : Byte
  /-- `ST`, the sound timer (R30). -/
  st : Byte
  /-- `K[0..15]`, the key latch: true while the key is held (R31). -/
  k : Vector Bool 16
  /-- `FB[0..31][0..63]` (R32). -/
  fb : Framebuffer
  /-- `RUN` (R33). -/
  run : RunState
  /-- `WAITX`, meaningful while `RUN = WaitingForKey` (R33). -/
  waitx : Nibble
  /-- `ERR`, oldest first (R34). -/
  err : List ErrorRecord
  /-- `SLOT`: instructions executed in the current tick's batch (R35). -/
  slot : Nat
  /-- The model's own: the parameter `IPF` less one, so that `IPF >= 1`. Log entry 1. -/
  ipfMinusOne : Nat
  /-- The model's own: inside a batch or between ticks. Log entry 4. -/
  phase : Phase
  /-- The model's own: no load was tried and no tick has begun since reset. Log entry 11. -/
  loadable : Bool
  /-- The model's own: inputs delivered and not yet taken, oldest first. Log entry 3. -/
  inputs : List Input
  /-- The model's own: how many inputs were taken from `Config.input`. Log entry 3. -/
  inputCount : Nat
  /-- The model's own: how many bytes were taken from `Config.draw`. Log entry 2. -/
  drawCount : Nat
  /-- The model's own: what the latest tick handed out. Log entry 10. -/
  output : Option TickOutput
  deriving DecidableEq, Repr

/-- The machine right after reset (10_state R38, 70_reset_and_hazards R190): memory with nothing listed reads as the
font and zeros. -/
def State.reset : State where
  mem := []
  v := Vector.replicate 16 0
  i := 0
  pc := 0x200
  sp := 0
  stk := Vector.replicate 16 0
  dt := 0
  st := 0
  k := Vector.replicate 16 false
  fb := Vector.replicate 32 (Vector.replicate 64 false)
  run := .running
  waitx := 0
  err := []
  slot := 0
  ipfMinusOne := Config.ipfMinusOne
  phase := .gap
  loadable := true
  inputs := []
  inputCount := 0
  drawCount := 0
  output := none

end Sys2Proof.Machine
end

