-- ==== Sys2Proof/Machine/Ops.lean ====
section
/-! DEFINITION. The named operations on memory, registers, stack, key latch and framebuffer; recording an error, the
one shared operation `raise`; and fetching a word. -/

namespace Sys2Proof.Machine

/-! ### Memory (20_memory) -/

/-- What cell `a` holds after reset, and so what an unlisted address reads as: the font in 0x000..0x04F, zero elsewhere
(10_state R24, R38). -/
def resetByte (a : Nat) : Byte := if a < 80 then Config.font.getD a 0 else 0

/-- The effective address: the RAM's decoder uses the low 12 bits (20_memory R50, D1). -/
def effective (addr : Nat) : Nat := addr % Config.memSize

/-- The byte a memory list gives at cell `a`. -/
def Memory.lookup : List Host.Cell → Nat → Byte
  | [], a => resetByte a
  | (b, w) :: rest, a => if b = a then w else lookup rest a

/-- The list without any entry at cell `a`. -/
def Memory.erase : List Host.Cell → Nat → List Host.Cell
  | [], _ => []
  | (b, w) :: rest, a => if b = a then erase rest a else (b, w) :: erase rest a

/-- The list with an entry at cell `a` put in front of the first higher address. -/
def Memory.insert : List Host.Cell → Nat → Byte → List Host.Cell
  | [], a, v => [(a, v)]
  | (b, w) :: rest, a, v => if a < b then (a, v) :: (b, w) :: rest else (b, w) :: insert rest a v

/-- The list after cell `a` is given `v`; the reset contents are not listed. -/
def Memory.store (m : List Host.Cell) (a : Nat) (v : Byte) : List Host.Cell :=
  if v = resetByte a then Memory.erase m a else Memory.insert (Memory.erase m a) a v

/-- The canonical form from address `lo` up: addresses strictly rising and below 4096, no entry at its reset
contents. -/
def Memory.wfFrom : Nat → List Host.Cell → Bool
  | _, [] => true
  | lo, (a, v) :: rest =>
    decide (lo ≤ a) && decide (a < Config.memSize) && decide (v ≠ resetByte a) && wfFrom (a + 1) rest

/-- The canonical form of memory. -/
def Memory.wf (m : List Host.Cell) : Bool := Memory.wfFrom 0 m

/-- `MemRead(addr, 1)` (20_memory R50). -/
def State.readByte (s : State) (addr : Nat) : Byte := Memory.lookup s.mem (effective addr)

/-- `MemWrite(addr, 1, v)` (20_memory R51). -/
def State.writeByte (s : State) (addr : Nat) (v : Byte) : State :=
  { s with mem := Memory.store s.mem (effective addr) v }

/-- Bytes stored at ascending addresses, each address reduced on its own (20_memory R53). -/
def State.writeBytes (s : State) (addr : Nat) : List Byte → State
  | [] => s
  | b :: rest => (s.writeByte addr b).writeBytes (addr + 1) rest

/-- `n` bytes read from ascending addresses (20_memory R53). -/
def State.readBytes (s : State) (addr : Nat) : Nat → List Byte
  | 0 => []
  | n + 1 => s.readByte addr :: s.readBytes (addr + 1) n

/-! ### Registers (10_state R21, R26) -/

/-- `V[x]`. -/
def State.getV (s : State) (x : Nibble) : Byte := s.v[x.toNat]'(x.isLt)

/-- `V[x] <- b`. -/
def State.setV (s : State) (x : Nibble) (b : Byte) : State := { s with v := s.v.set x.toNat b x.isLt }

/-- `I <- a`. -/
def State.setI (s : State) (a : Word) : State := { s with i := a }

/-- `PC <- a`. -/
def State.setPc (s : State) (a : Word) : State := { s with pc := a }

/-- The default advance of `PC`, made before the instruction executes (10_state R27). -/
def State.advancePc (s : State) : State := s.setPc (s.pc + 2)

/-- A skip: "an additional 2 when the condition holds" (40_control_flow R108). -/
def State.skipIf (s : State) (cond : Bool) : State := if cond then s.setPc (s.pc + 2) else s

/-! ### The return stack (10_state R28) -/

/-- Push a return address; none when sixteen are held. -/
def State.push (s : State) (a : Word) : Option State :=
  if h : s.sp.val < 16 then
    some { s with stk := s.stk.set s.sp.val a h, sp := ⟨s.sp.val + 1, Nat.add_lt_add_right h 1⟩ }
  else none

/-- Pop a return address; none when none is held. The popped slot keeps its contents. -/
def State.pop (s : State) : Option (Word × State) :=
  if h : 0 < s.sp.val then
    some (s.stk[s.sp.val - 1]'(by have := s.sp.isLt; omega),
      { s with sp := ⟨s.sp.val - 1, by have := s.sp.isLt; omega⟩ })
  else none

/-! ### Errors (60_exceptions R160 to R164) -/

/-- `raise E(info)`: one record appended, nothing else changed; `PC` keeps the default advance. This machine has no
trap entry and no trap return (R169, R170): this is all that an error does. -/
def State.raise (s : State) (e : ErrorRecord) : State := { s with err := s.err ++ [e] }

/-- The numeric code of an error (R161, D12). -/
def errorCode : ErrorRecord → Nat
  | .unknown _ => 1
  | .stackOverflow => 2
  | .stackUnderflow => 3
  | .programTooLarge => 4

/-- The counter of one kind of error: how many records of its code the log holds (10_state R34). -/
def State.errorCount (s : State) (code : Nat) : Nat := s.err.countP fun e => errorCode e == code

/-! ### Key latch (10_state R31) -/

/-- `K[key]`. -/
def State.keyHeld (s : State) (key : Nibble) : Bool := s.k[key.toNat]'(key.isLt)

/-- `K[key] <- down`. -/
def State.setKey (s : State) (key : Nibble) (down : Bool) : State := { s with k := s.k.set key.toNat down key.isLt }

/-! ### Framebuffer (10_state R32) -/

/-- The framebuffer with every cell off. -/
def Framebuffer.clear : Framebuffer := Vector.replicate 32 (Vector.replicate 64 false)

/-- `FB[y mod 32][x mod 64]`: both axes wrap. -/
def Framebuffer.cell (fb : Framebuffer) (y x : Nat) : Bool :=
  (fb[y % 32]'(Nat.mod_lt y (by decide)))[x % 64]'(Nat.mod_lt x (by decide))

/-- The framebuffer with cell `(y mod 32, x mod 64)` XORed with 1. -/
def Framebuffer.flipCell (fb : Framebuffer) (y x : Nat) : Framebuffer :=
  fb.set (y % 32)
    ((fb[y % 32]'(Nat.mod_lt y (by decide))).set (x % 64) (!fb.cell y x) (Nat.mod_lt x (by decide)))
    (Nat.mod_lt y (by decide))

/-- The 2048 cells in row-major order, cell `(y, x)` at index `64*y + x` (10_state R32, D24): how the output port
`frame` numbers them. -/
def Framebuffer.rowMajor (fb : Framebuffer) : List Bool := (fb.toList.map Vector.toList).flatten

/-! ### Fetch (20_memory R54) -/

/-- `MemRead(PC, 2)`: the byte at the lower address is the more significant; each address is reduced on its own. -/
def State.fetchWord (s : State) : Word := s.readByte s.pc.toNat ++ s.readByte (s.pc.toNat + 1)

/-! ### Free values -/

/-- `draw8()`: the next random byte, and the state that has taken it (43_random R130). Log entry 2. -/
def State.drawByte (s : State) : Byte × State :=
  (Config.draw s.drawCount, { s with drawCount := s.drawCount + 1 })

end Sys2Proof.Machine
end

