-- ==== Sys2Proof/Machine/Flags.lean ====
section
/-! DEFINITION. Every computation of the flag `VF` (10_state R22) and the order in which a result and its flag are
written (41_arithmetic R121). -/

namespace Sys2Proof.Machine

/-- `VF`, the register a flag is written to (10_state R22). -/
def flagReg : Nibble := 0xF

/-- A flag as a register's value: 1 or 0. -/
def flagByte (b : Bool) : Byte := if b then 1 else 0

/-- Carry of `a + b`: the exact sum exceeds 255 (41_arithmetic R116). -/
def carry (a b : Byte) : Bool := decide (255 < a.toNat + b.toNat)

/-- Not-borrow of `a - b`: `a >= b` (41_arithmetic R117, R118). -/
def notBorrow (a b : Byte) : Bool := decide (b.toNat ≤ a.toNat)

/-- The bit a right shift by one drops: bit 0 of the operand (41_arithmetic R119). -/
def rightBit (v : Byte) : Bool := v.getLsbD 0

/-- The bit a left shift by one drops: bit 7 of the operand (41_arithmetic R120). -/
def leftBit (v : Byte) : Bool := v.getLsbD 7

/-- Write a flag into `VF`. -/
def State.setFlag (s : State) (f : Bool) : State := s.setV flagReg (flagByte f)

/-- Write a result to `V[x]` and THEN the flag to `VF`, so that with `x = 15` the flag is what remains
(41_arithmetic R121). -/
def State.setResult (s : State) (x : Nibble) (r : Byte) (f : Bool) : State := (s.setV x r).setFlag f

end Sys2Proof.Machine
end

