-- ==== Sys2Proof/Machine/Operands.lean ====
section
/-! DEFINITION. The operand forms (30_encoding R78, 44_memory_transfer R135): immediates, the register a shift reads, the
pointer `I`, the font glyph and the key a register names. A register operand is `State.getV`. -/

namespace Sys2Proof.Machine

/-- `zext_16(nnn)`: an address immediate written to `PC` or `I` (30_encoding R78). -/
def addrImm (nnn : Addr12) : Word := nnn.setWidth 16

/-- `zext_16` of a register's value (40_control_flow R107, 42_index R126). -/
def zextByte (b : Byte) : Word := b.setWidth 16

/-- The value `v` a shift works on, by `SHIFT_SRC` (41_arithmetic R119, R120). -/
def State.shiftOperand (s : State) (src : ShiftSrc) (x y : Nibble) : Byte :=
  match src with
  | .vx => s.getV x
  | .vy => s.getV y

/-- The address register-indirect operands start at: `I` on entry (44_memory_transfer R135). -/
def State.pointer (s : State) : Nat := s.i.toNat

/-- The post-modification of `I` by the bulk transfers: `I + x + 1` modulo 65536 (44_memory_transfer R132, R133). -/
def advancedPointer (i : Word) (x : Nibble) : Word := i + x.setWidth 16 + 1

/-- `V0..Vx`, in order (44_memory_transfer R132). -/
def State.lowRegs (s : State) (x : Nibble) : List Byte := s.v.toList.take (x.toNat + 1)

/-- The address of the glyph of a register's low nibble: `5 * d`, `FONT_BASE` being 0 (42_index R127). -/
def glyphAddress (b : Byte) : Word := 5 * (b &&& 0x0F#8).setWidth 16

/-- The key a register names: its low nibble (46_input R145, D9). -/
def keyIndex (b : Byte) : Nibble := b.setWidth 4

/-- The three decimal digits of a byte: hundreds, tens, ones (44_memory_transfer R134). -/
def bcdDigits (b : Byte) : List Byte :=
  [BitVec.ofNat 8 (b.toNat / 100), BitVec.ofNat 8 (b.toNat / 10 % 10), BitVec.ofNat 8 (b.toNat % 10)]

end Sys2Proof.Machine
end

