-- ==== Sys2Proof/Machine/Arithmetic.lean ====
section
/-! DEFINITION. Register and immediate arithmetic (41_arithmetic). Operands are read before any write, and the flag is
written after the result (R121). -/

namespace Sys2Proof.Machine

/-- `LD Vx,kk` (R110). -/
def execLdImm (x : Nibble) (kk : Byte) (s : State) : Host.Outcome State Fault Refusal := .next (s.setV x kk)

/-- `ADD Vx,kk` (R111): modulo 256, no flag. -/
def execAddImm (x : Nibble) (kk : Byte) (s : State) : Host.Outcome State Fault Refusal :=
  .next (s.setV x (s.getV x + kk))

/-- `LD Vx,Vy` (R112). -/
def execLdReg (x y : Nibble) (s : State) : Host.Outcome State Fault Refusal := .next (s.setV x (s.getV y))

/-- `OR Vx,Vy` (R113): `VF` is not a flag here (R123). -/
def execOrReg (x y : Nibble) (s : State) : Host.Outcome State Fault Refusal :=
  .next (s.setV x (s.getV x ||| s.getV y))

/-- `AND Vx,Vy` (R114). -/
def execAndReg (x y : Nibble) (s : State) : Host.Outcome State Fault Refusal :=
  .next (s.setV x (s.getV x &&& s.getV y))

/-- `XOR Vx,Vy` (R115). -/
def execXorReg (x y : Nibble) (s : State) : Host.Outcome State Fault Refusal :=
  .next (s.setV x (s.getV x ^^^ s.getV y))

/-- `ADD Vx,Vy` (R116). -/
def execAddReg (x y : Nibble) (s : State) : Host.Outcome State Fault Refusal :=
  .next (s.setResult x (s.getV x + s.getV y) (carry (s.getV x) (s.getV y)))

/-- `SUB Vx,Vy` (R117). -/
def execSubReg (x y : Nibble) (s : State) : Host.Outcome State Fault Refusal :=
  .next (s.setResult x (s.getV x - s.getV y) (notBorrow (s.getV x) (s.getV y)))

/-- `SUBN Vx,Vy` (R118). -/
def execSubnReg (x y : Nibble) (s : State) : Host.Outcome State Fault Refusal :=
  .next (s.setResult x (s.getV y - s.getV x) (notBorrow (s.getV y) (s.getV x)))

/-- `8xy6` under a given `SHIFT_SRC` (R119). -/
def State.shiftRight (s : State) (src : ShiftSrc) (x y : Nibble) : State :=
  s.setResult x (s.shiftOperand src x y >>> 1) (rightBit (s.shiftOperand src x y))

/-- `8xyE` under a given `SHIFT_SRC` (R120). -/
def State.shiftLeft (s : State) (src : ShiftSrc) (x y : Nibble) : State :=
  s.setResult x (s.shiftOperand src x y <<< 1) (leftBit (s.shiftOperand src x y))

/-- `SHR Vx{,Vy}` (R119) with this machine's `SHIFT_SRC`. -/
def execShr (x y : Nibble) (s : State) : Host.Outcome State Fault Refusal :=
  .next (s.shiftRight Config.shiftSrc x y)

/-- `SHL Vx{,Vy}` (R120) with this machine's `SHIFT_SRC`. -/
def execShl (x y : Nibble) (s : State) : Host.Outcome State Fault Refusal :=
  .next (s.shiftLeft Config.shiftSrc x y)

end Sys2Proof.Machine
end

