-- ==== Sys2Proof/Machine/Display.lean ====
section
/-! DEFINITION. The display instructions (45_display). -/

namespace Sys2Proof.Machine

/-- A framebuffer being drawn into, and whether a cell has gone from 1 to 0 so far (R138). -/
abbrev Drawing := Framebuffer × Bool

/-- Sprite pixel `c` of byte `b`: bit `7 - c`, the most significant bit leftmost (R139). -/
def spriteBit (b : Byte) (c : Nat) : Bool := b.getLsbD (7 - c)

/-- One pixel: a 1 bit flips its cell and notes a collision; a 0 bit does nothing (R138). -/
def drawPixel (d : Drawing) (b : Byte) (y ox c : Nat) : Drawing :=
  if spriteBit b c then (d.1.flipCell y (ox + c), d.2 || d.1.cell y (ox + c)) else d

/-- One sprite row: eight pixels, left to right (R138). -/
def drawRow (d : Drawing) (b : Byte) (y ox : Nat) : Drawing :=
  [0, 1, 2, 3, 4, 5, 6, 7].foldl (fun d c => drawPixel d b y ox c) d

/-- The rows of a sprite, top row first, from framebuffer row `y` down (R138). -/
def drawRows (d : Drawing) (ox y : Nat) : List Byte → Drawing
  | [] => d
  | b :: rest => drawRows (drawRow d b y ox) ox (y + 1) rest

/-- `CLS` (R137). -/
def execCls (s : State) : Host.Outcome State Fault Refusal := .next { s with fb := Framebuffer.clear }

/-- `DRW Vx,Vy,n` (R138): the origin is read before `VF` is written; the collision flag is written once, after all
rows; `I` is unchanged. -/
def execDrw (x y n : Nibble) (s : State) : Host.Outcome State Fault Refusal :=
  let d := drawRows (s.fb, false) (s.getV x).toNat (s.getV y).toNat (s.readBytes s.pointer n.toNat)
  .next ({ s with fb := d.1 }.setFlag d.2)

end Sys2Proof.Machine
end

