-- ==== Sys2Proof/Machine/Input.lean ====
section
/-! DEFINITION. The input instructions (46_input). -/

namespace Sys2Proof.Machine

/-- `SKP Vx` (R142): skip on the level "currently held". -/
def execSkp (x : Nibble) (s : State) : Host.Outcome State Fault Refusal :=
  .next (s.skipIf (s.keyHeld (keyIndex (s.getV x))))

/-- `SKNP Vx` (R143). -/
def execSknp (x : Nibble) (s : State) : Host.Outcome State Fault Refusal :=
  .next (s.skipIf (!s.keyHeld (keyIndex (s.getV x))))

/-- `LD Vx,K` (R144): arm the wait; the cycle driver and the next key-down edge do the rest. -/
def execLdVxK (x : Nibble) (s : State) : Host.Outcome State Fault Refusal :=
  .next { s with waitx := x, run := .waitingForKey }

end Sys2Proof.Machine
end

