-- ==== Sys2Proof/Machine/Random.lean ====
section
/-! DEFINITION. The randomization instruction (43_random). -/

namespace Sys2Proof.Machine

/-- `RND Vx,kk` (R130): a free byte, masked. -/
def execRnd (x : Nibble) (kk : Byte) (s : State) : Host.Outcome State Fault Refusal :=
  .next (s.drawByte.2.setV x (s.drawByte.1 &&& kk))

end Sys2Proof.Machine
end

