-- ==== Sys2Proof/Machine/Transfer.lean ====
section
/-! DEFINITION. Bulk transfers and BCD expansion (44_memory_transfer). -/

namespace Sys2Proof.Machine

/-- `V0..Vx` loaded from the bytes at `base`, the registers above `Vx` unchanged (R133). -/
def State.loadLowRegs (s : State) (base : Nat) (x : Nibble) : State :=
  { s with v := Vector.ofFn fun j => if j.val ≤ x.toNat then s.readByte (base + j.val) else s.v[j] }

/-- `LD [I],Vx` (R132): store `V0..Vx` ascending, then advance `I`. -/
def execStoreRegs (x : Nibble) (s : State) : Host.Outcome State Fault Refusal :=
  .next ((s.writeBytes s.pointer (s.lowRegs x)).setI (advancedPointer s.i x))

/-- `LD Vx,[I]` (R133): load `V0..Vx` ascending, then advance `I`. -/
def execLoadRegs (x : Nibble) (s : State) : Host.Outcome State Fault Refusal :=
  .next ((s.loadLowRegs s.pointer x).setI (advancedPointer s.i x))

/-- `LD B,Vx` (R134): hundreds, tens, ones; `I` unchanged. -/
def execLdBVx (x : Nibble) (s : State) : Host.Outcome State Fault Refusal :=
  .next (s.writeBytes s.pointer (bcdDigits (s.getV x)))

end Sys2Proof.Machine
end

