-- ==== Sys2Proof/Machine/Cycle.lean ====
section
/-! DEFINITION. The cycle driver (60_exceptions section 6): the instruction step, the tick around a batch of them, and
the key events between ticks. One call of `cycle` is one atomic step of one agent. -/

namespace Sys2Proof.Machine

/-- `IPF`, at least 1 (00_scope R6). -/
def State.ipf (s : State) : Nat := s.ipfMinusOne + 1

/-- Whether the next step is an instruction step: inside a batch, `RUN = Running`, `SLOT < IPF` (60_exceptions R172). -/
def State.fetching (s : State) : Bool :=
  decide (s.phase = .batch) && decide (s.run = .running) && decide (s.slot < s.ipf)

/-- `SLOT <- SLOT + 1` after an instruction, erroring or not (60_exceptions R172, R163). -/
def countSlot : Host.Outcome State Fault Refusal → Host.Outcome State Fault Refusal
  | .next s => .next { s with slot := s.slot + 1 }
  | .fault r => .fault r
  | .refused r => .refused r

/-- Execute what a word decodes to; an Unknown word records its error and is otherwise a no-op (60_exceptions R163). -/
def executeOp (op : Operation) (s : State) : Host.Outcome State Fault Refusal :=
  match op with
  | .instr i => exec i s
  | .unknown w => .next (s.raise (.unknown w))

/-- `Step()`: fetch, advance `PC`, decode, execute (60_exceptions R174), and count the slot. -/
def instructionStep (s : State) : Host.Outcome State Fault Refusal :=
  countSlot (executeOp (decodeWord s.fetchWord) s.advancePc)

/-- One timer's decrement, never below 0 (60_exceptions R171). -/
def decrement (t : Byte) : Byte := if 0 < t.toNat then t - 1 else t

/-- `TimerDecrement()` (60_exceptions R171). -/
def State.timerDecrement (s : State) : State := { s with dt := decrement s.dt, st := decrement s.st }

/-- `Present(FB)`: the output ports carry the framebuffer and the sound timer as they stand (60_exceptions R178, R179). -/
def State.present (s : State) : State := { s with output := some { frame := s.fb, st := s.st } }

/-- The end of a tick: the timers, then the hand-out (60_exceptions R172), then the gap before the next tick. -/
def State.endTick (s : State) : State := { s.timerDecrement.present with phase := .gap }

/-- The start of a tick: `SLOT <- 0` (60_exceptions R172). From here on no load is possible (70_reset_and_hazards R196). -/
def State.startTick (s : State) : State := { s with slot := 0, phase := .batch, loadable := false }

/-- `KeyEvent(key, down)` (60_exceptions R176): the edge is taken from the latch before it is updated. -/
def State.keyEvent (s : State) (key : Nibble) (down : Bool) : State :=
  let edge := down && !s.keyHeld key
  let latched := s.setKey key down
  if s.run = .waitingForKey ∧ edge = true then
    { latched.setV s.waitx (key.setWidth 8) with run := .running }
  else latched

/-- The next input between ticks: the oldest delivered one, and when all are taken a free one (60_exceptions R177).
Log entry 3. -/
def State.takeInput (s : State) : Input × State :=
  match s.inputs with
  | e :: rest => (e, { s with inputs := rest })
  | [] => (Config.input s.inputCount, { s with inputCount := s.inputCount + 1 })

/-- What an input does: a key event, or the activation of the next tick. -/
def State.applyInput (s : State) : Input → State
  | .key key down => s.keyEvent key down
  | .tick => s.startTick

/-- A step between ticks (60_exceptions R172, R177). -/
def State.gapStep (s : State) : State := s.takeInput.2.applyInput s.takeInput.1

/-- One step of the machine: an instruction of the batch, or the end of the tick when the batch is over or the core
waits, or an input between ticks (60_exceptions R172, R177). -/
def cycle (s : State) : Host.Outcome State Fault Refusal :=
  if s.fetching then instructionStep s
  else match s.phase with
    | .batch => .next s.endTick
    | .gap => .next s.gapStep

/-- The state in which the next step is an instruction step: unchanged if it is one already, else moved to the start of a
batch with `RUN = Running`. -/
def State.toFetch (s : State) : State :=
  if s.fetching then s else { s.startTick with run := .running }

/-- The state with an instruction word stored big-endian where the next fetch reads it (20_memory R54). -/
def State.placeWord (s : State) (w : Word) : State :=
  (s.writeByte s.pc.toNat (bytesOfWord w).1).writeByte (s.pc.toNat + 1) (bytesOfWord w).2

end Sys2Proof.Machine
end

