-- ==== Sys2Proof/Machine/Step.lean ====
section
/-! DEFINITION. One step of the machine, and placing one instruction for it to fetch. -/

namespace Sys2Proof.Machine

/-- One atomic step of one agent: see `cycle`. -/
def step (s : State) : Host.Outcome State Fault Refusal := cycle s

/-- `s` with the instruction word whose bits are `w` (numbered as spec/opcode_table.json numbers them) stored at `PC`,
inside a batch with a slot free and `RUN = Running`, so that the very next step fetches and runs it. Log entry 4. -/
def State.withFetchWord (s : State) (nbits w : Nat) : State :=
  s.toFetch.placeWord (BitVec.ofNat 16 (w % 2 ^ nbits))

end Sys2Proof.Machine
end

