-- ==== Sys2Proof/Machine/Boundary.lean ====
section
/-! DEFINITION. What the host does outside the machine's own steps: reset, program load, and delivering inputs
(00_scope R12; 60_exceptions R180; 70_reset_and_hazards R190, R196). -/

namespace Sys2Proof.Machine

/-- The `reset` port (70_reset_and_hazards R190): every piece of the spec's state at its reset value. What belongs to the
environment goes on: IPF, the inputs delivered and not taken, and the free-value counters. Log entry 12. -/
def State.hostReset (s : State) : State :=
  { State.reset with
    ipfMinusOne := s.ipfMinusOne, inputs := s.inputs, inputCount := s.inputCount, drawCount := s.drawCount }

/-- `Load(img)` (70_reset_and_hazards R196): copy verbatim from 0x200, or record ProgramTooLarge and copy nothing. Once,
between reset and the first tick; at another moment the spec gives it no meaning (D19, U12). -/
def load (img : List Byte) (s : State) : Host.Outcome State Fault Refusal :=
  if s.loadable then
    if Config.memSize < Config.progBase + img.length then
      .next { s.raise .programTooLarge with loadable := false }
    else .next { s.writeBytes Config.progBase img with loadable := false }
  else .refused .loadOutsideBoot

/-- The `key` and `tick` ports (60_exceptions R177, R180): one more input delivered, to be taken between ticks in order. -/
def State.deliver (s : State) (e : Input) : State := { s with inputs := s.inputs ++ [e] }

/-- One act of the host. -/
inductive HostAct where
  | reset
  | load (img : List Byte)
  | deliver (e : Input)
  deriving DecidableEq, Repr

/-- The host's acts, each atomic with respect to every step (10_state R37). -/
def hostStep (a : HostAct) (s : State) : Host.Outcome State Fault Refusal :=
  match a with
  | .reset => .next s.hostReset
  | .load img => Sys2Proof.Machine.load img s
  | .deliver e => .next (s.deliver e)

end Sys2Proof.Machine
end

