-- ==== Sys2Proof/Safety.lean ====
section
/-! DEFINITION. The terms claims use: the machine's invariant, a run without errors, the end of a program, and a whole
tick as one function. -/

namespace Sys2Proof.Machine

/-- What every reachable state satisfies: memory in its canonical form; `SLOT` within 0..IPF (10_state R35); and before
the first tick nothing has been counted or handed out (70_reset_and_hazards R196). -/
structure Inv (s : State) : Prop where
  mem_wf : Memory.wf s.mem = true
  slot_le : s.slot ≤ s.ipf
  boot : s.loadable = true → s.phase = .gap ∧ s.slot = 0 ∧ s.output = none

/-- No error has been recorded: the postcondition 60_exceptions R165 asks a claim about a program to carry. -/
def errorFree (s : State) : Prop := s.err = []

/-- The program has ended, in the sense of 70_reset_and_hazards R200 (b): the word at `PC` jumps to `PC` itself. -/
def atSelfJump (s : State) : Prop := ∃ nnn : Addr12, s.pc = addrImm nnn ∧ s.fetchWord = encode (.jp nnn)

/-- The `while` loop of `Tick()` (60_exceptions R172), at most `fuel` times round. -/
def runBatch : Nat → State → Host.Outcome State Fault Refusal
  | 0, s => .next s
  | fuel + 1, s =>
    if s.run = .running ∧ s.slot < s.ipf then
      match instructionStep s with
      | .next s' => runBatch fuel s'
      | .fault r => .fault r
      | .refused r => .refused r
    else .next s

/-- `Tick()` as one function (60_exceptions R172): `SLOT <- 0`, the batch, the timers, the hand-out. -/
def tick (s : State) : Host.Outcome State Fault Refusal :=
  match runBatch s.ipf s.startTick with
  | .next s' => .next s'.endTick
  | .fault r => .fault r
  | .refused r => .refused r

end Sys2Proof.Machine
end

