-- ==== Sys2Proof/Certificates/Slice0/Obligations.lean ====
section
/-! DEFINITION. The statements for the provers, each from the numbered rules of spec/. An instruction's statement gives the
word that spells it, that `exec` answers a next state for every state and operands, the new values, and the frame. Each frame
is an equation between states: every field it does not name is as it was. -/

namespace Sys2Proof.Claims

open Sys2Proof.Machine

/-- The word spells the instruction: the "Encoding" line of an instruction's rule. -/
def Spells (w : Word) (i : Instr) : Prop := decodeWord w = .instr i

/-- Every byte of memory reads as before. -/
def SameMemory (s t : State) : Prop := ∀ a : Nat, t.readByte a = s.readByte a

/-- Nothing but general registers differs: memory, `PC`, `I`, the stack, timers, latch, display, wait state and error log
are as before. -/
def OnlyRegs (s t : State) : Prop := t = { s with v := t.v } ∧ SameMemory s t

/-- Nothing but `PC` differs. -/
def OnlyPc (s t : State) : Prop := t = { s with pc := t.pc } ∧ SameMemory s t

/-- Nothing but `I` differs. -/
def OnlyI (s t : State) : Prop := t = { s with i := t.i } ∧ SameMemory s t

/-- Every register but `V[x]` is as before. -/
def OtherRegsSame (s t : State) (x : Nibble) : Prop := ∀ j : Nibble, j ≠ x → t.getV j = s.getV j

/-- A result in `V[x]` and then a flag in `VF`, all other registers as before: with `x = 15` the flag is what remains
(41_arithmetic R121). -/
def ResultAndFlag (s t : State) (x : Nibble) (result : Nat) (flag : Prop) : Prop :=
  ((t.getV 15).toNat = 1 ∨ (t.getV 15).toNat = 0) ∧ ((t.getV 15).toNat = 1 ↔ flag) ∧
  (x ≠ 15 → (t.getV x).toNat = result) ∧ ∀ j : Nibble, j ≠ 15 → j ≠ x → t.getV j = s.getV j

/-- Sprite pixel `(r, c)` of the `n` bytes at `I` is 1 and lands on cell `(row, col)`, for some `r < n`, `c < 8`
(45_display R139). -/
def Lands (s : State) (ox oy n row col : Nat) : Prop :=
  ∃ r c : Nat, r < n ∧ c < 8 ∧ (s.readByte (s.i.toNat + r)).getLsbD (7 - c) = true ∧
    row = (oy + r) % 32 ∧ col = (ox + c) % 64

/-- The six instructions that write `VF` as a flag (10_state R22). -/
def WritesFlag : Instr → Prop
  | .addReg _ _ | .subReg _ _ | .shr _ _ | .subnReg _ _ | .shl _ _ | .drw _ _ _ => True
  | _ => False

/-- The instruction names `VF` as a destination register (10_state R22). -/
def NamesVF : Instr → Prop
  | .ldImm x _ | .addImm x _ | .ldReg x _ | .orReg x _ | .andReg x _ | .xorReg x _ | .rnd x _ | .ldVxDt x
  | .loadRegs x => x = 15
  | _ => False

/-- The value `v` a shift works on under a convention (41_arithmetic R119). -/
def ShiftValue (s : State) (src : ShiftSrc) (x y : Nibble) : Byte :=
  if src = .vx then s.getV x else s.getV y

end Sys2Proof.Claims

open Sys2Proof Sys2Proof.Machine Sys2Proof.Claims

/-! ### Encoding (30_encoding) -/

/-- 95_test_vectors 2.1: words of every family, attested and derived. -/
def Obligations.SampleWordsDecode : Prop :=
  Spells 0x00E0#16 .cls ∧ Spells 0x1ABC#16 (.jp 0xABC) ∧ Spells 0x6A05#16 (.ldImm 0xA 0x05) ∧
  Spells 0x7A03#16 (.addImm 0xA 0x03) ∧ Spells 0x8127#16 (.subnReg 1 2) ∧ Spells 0xA2F0#16 (.ldI 0x2F0) ∧
  Spells 0xC2F0#16 (.rnd 2 0xF0) ∧ Spells 0xD123#16 (.drw 1 2 3) ∧ Spells 0xF00A#16 (.ldVxK 0) ∧
  Spells 0xF118#16 (.ldStVx 1) ∧ Spells 0xF155#16 (.storeRegs 1) ∧
  decodeWord 0x0000#16 = .unknown 0x0000#16 ∧ decodeWord 0x5121#16 = .unknown 0x5121#16

/-- Decode and encode agree for every instruction at every operand, alone and in a stream of bytes (R79, R80). -/
def Obligations.DecodeOfEncodeIsTheInstruction : Prop :=
  ∀ (i : Instr) (rest : List Byte), wellFormed i = true →
    decodeWord (encode i) = .instr i ∧ decode (encodeBytes i ++ rest) = .ok (i, rest)

/-- No two words spell one instruction, and the decoder invents none: an instruction it reads encodes to the word read. -/
def Obligations.EncodeOfDecodeIsTheWord : Prop :=
  ∀ (w : Word) (i : Instr), decodeWord w = .instr i → encode i = w ∧ wellFormed i = true

/-- The decoder agrees with the mask and match columns of R80: a word is in the row of what it decodes to, a word in some row
decodes into that row (so the rows are disjoint), and a word in no row is Unknown with that word as its tag. -/
def Obligations.DecoderAgreesWithOpcodeMap : Prop :=
  ∀ w : Word,
    (∀ i, decodeWord w = .instr i → inRowOf i w) ∧
    (∀ i, inRowOf i w → ∃ j, decodeWord w = .instr j ∧ opcodeRow j = opcodeRow i) ∧
    ((∀ i, ¬ inRowOf i w) → decodeWord w = .unknown w)

/-- The Unknown space family by family (R82), for both values of BNNN_ENABLED. -/
def Obligations.UnknownWordsAreExactlyTheListed : Prop :=
  ∀ (bnnn : Bool) (w : Word),
    decodeWordWith bnnn w = .unknown w ↔
      (w.toNat / 4096 = 0x0 ∧ w.toNat ≠ 0x00E0 ∧ w.toNat ≠ 0x00EE) ∨
      (w.toNat / 4096 = 0x5 ∧ w.toNat % 16 ≠ 0) ∨
      (w.toNat / 4096 = 0x8 ∧ w.toNat % 16 ∈ [8, 9, 0xA, 0xB, 0xC, 0xD, 0xF]) ∨
      (w.toNat / 4096 = 0x9 ∧ w.toNat % 16 ≠ 0) ∨
      (w.toNat / 4096 = 0xB ∧ bnnn = false) ∨
      (w.toNat / 4096 = 0xE ∧ w.toNat % 256 ≠ 0x9E ∧ w.toNat % 256 ≠ 0xA1) ∨
      (w.toNat / 4096 = 0xF ∧ w.toNat % 256 ∉ [0x07, 0x0A, 0x15, 0x18, 0x1E, 0x29, 0x33, 0x55, 0x65])

/-! ### Memory (20_memory) -/

/-- R51: a store reaches the one cell its address names, and every other cell keeps its byte. That an address is reduced modulo
4096 is a choice (D1, U1), log entry 8; the aliasing clause, R59, is marked there '[derived: from rule R50]'. -/
def Obligations.ByteStoreReachesItsCellOnly : Prop :=
  ∀ (s : State) (addr : Nat) (b : Byte),
    (∀ k : Nat, (s.writeByte addr b).readByte (addr + 4096 * k) = b) ∧
    (∀ a : Nat, a % 4096 ≠ addr % 4096 → (s.writeByte addr b).readByte a = s.readByte a) ∧
    s.writeByte addr b = { s with mem := (s.writeByte addr b).mem }

/-- R54: the fetched word. That the second byte's address is reduced on its own is marked there '[derived: from rule R50]', and
the reduction modulo 4096 is a choice (D1, U1), log entry 8. -/
def Obligations.FetchIsBigEndianAndWraps : Prop :=
  ∀ s : State,
    s.fetchWord.toNat = (s.readByte s.pc.toNat).toNat * 256 + (s.readByte (s.pc.toNat + 1)).toNat ∧
    (s.pc.toNat % 4096 = 0xFFF →
      s.fetchWord.toNat = (s.readByte 0xFFF).toNat * 256 + (s.readByte 0x000).toNat)

/-- R62, R58: two registers stored at `I` are the word the next fetch at that address reads. -/
def Obligations.StoredBytesAreTheNextFetch : Prop :=
  ∀ s : State, ∃ t, exec (.storeRegs 1) s = .next t ∧
    ({ t with pc := s.i } : State).fetchWord.toNat = (s.getV 0).toNat * 256 + (s.getV 1).toNat

/-! ### The cycle driver (60_exceptions) -/

/-- R174: inside a batch with a slot free and `RUN = Running`, a step is the decoded instruction's `exec` at the state whose
`PC` is already advanced, and one more slot used. That being inside a batch is a field is the model's choice, log entry 4. -/
def Obligations.StepRunsTheDecodedInstruction : Prop :=
  ∀ (s : State) (i : Instr),
    s.phase = .batch → s.run = .running → s.slot < s.ipf → Spells s.fetchWord i →
    step s =
      match exec i { s with pc := s.pc + 2 } with
      | .next t => .next { t with slot := t.slot + 1 }
      | .fault r => .fault r
      | .refused r => .refused r

/-- R163: an Unknown word: `PC = a + 2`, one record more, one slot used, everything else unchanged. -/
def Obligations.UnknownWordIsRecordedAndSteppedOver : Prop :=
  ∀ (s : State) (w : Word),
    s.phase = .batch → s.run = .running → s.slot < s.ipf → decodeWord s.fetchWord = .unknown w →
    ∃ t, step s = .next t ∧ w = s.fetchWord ∧ t.pc.toNat = (s.pc.toNat + 2) % 65536 ∧
      t = { s with pc := t.pc, err := s.err ++ [.unknown s.fetchWord], slot := s.slot + 1 } ∧ SameMemory s t

/-- R171, R178, R179: when the batch is over, or at once while the core waits, the step ends the tick. The phase, the field that
keeps the hand-out and the value of `ST` it carries are the model's choices, log entries 4, 10 and 15. -/
def Obligations.EndOfTickDecrementsTimersAndHandsOut : Prop :=
  ∀ s : State, s.phase = .batch → (s.run = .waitingForKey ∨ s.ipf ≤ s.slot) →
    ∃ t, step s = .next t ∧ t.dt.toNat = s.dt.toNat - 1 ∧ t.st.toNat = s.st.toNat - 1 ∧
      t.output = some { frame := s.fb, st := t.st } ∧
      t = { s with dt := t.dt, st := t.st, output := t.output, phase := .gap } ∧ SameMemory s t

/-- R172: the tick the host calls for starts a batch. That the gap is a phase of its own, the
queue of inputs and the field for the load window are the model's choices, log entries 4, 3 and 11. -/
def Obligations.NextTickStartsItsBatch : Prop :=
  ∀ (s : State) (rest : List Input), s.phase = .gap → s.inputs = .tick :: rest →
    ∃ t, step s = .next t ∧
      t = { s with inputs := rest, slot := 0, phase := .batch, loadable := false } ∧ SameMemory s t

/-- R176: a key event, taken in order between ticks: the latch, and on a key-down edge while waiting the target register and
the end of the wait. The queue of inputs is the model's choice, log entry 3. -/
def Obligations.KeyEventUpdatesLatchAndResolvesWait : Prop :=
  ∀ (s : State) (key : Nibble) (down : Bool) (rest : List Input),
    s.phase = .gap → s.inputs = .key key down :: rest →
    ∃ t, step s = .next t ∧ t.keyHeld key = down ∧ (∀ j, j ≠ key → t.keyHeld j = s.keyHeld j) ∧
      (if s.run = .waitingForKey ∧ down = true ∧ s.keyHeld key = false then
        (t.getV s.waitx).toNat = key.toNat ∧ OtherRegsSame s t s.waitx ∧ t.run = .running
      else t.v = s.v ∧ t.run = s.run) ∧
      t = { s with inputs := rest, k := t.k, v := t.v, run := t.run } ∧ SameMemory s t

/-- R177, U15: with nothing delivered, the step between ticks takes a free input as if it had been delivered. The form of the
free value is the model's choice, log entry 3; the statement holds for every value of it. -/
def Obligations.UndeliveredInputIsFree : Prop :=
  ∀ s : State, s.phase = .gap → s.inputs = [] →
    step s = step { s with inputs := [Config.input s.inputCount], inputCount := s.inputCount + 1 }

/-- R172: from the gap, with the host's tick delivered, the machine's steps up to the end of that tick are `Tick()`: the
start, at most IPF instruction steps, and the end. The model's choices in it: the queue that delivers the tick (log entry 3), the
split into steps (4), the field that keeps the hand-out (10) and the value of `ST` it carries (15, DEDUCED). -/
def Obligations.StepsOfATickAreTheDriversLoop : Prop :=
  ∀ (s : State) (rest : List Input), s.phase = .gap → s.inputs = .tick :: rest →
    ∃ (n : Nat) (t : State), n ≤ s.ipf ∧ tick { s with inputs := rest } = .next t ∧
      Sys2Proof.core.run (n + 2) s = .next t ∧ t.slot = n ∧ (t.run = .running → n = s.ipf) ∧
      t.phase = .gap ∧ t.output = some { frame := t.fb, st := t.st }

/-- R52, R160, R161, R173, R200: no step of the machine and no instruction, in any state, ends in a fault or a refusal. That
`Fault` is empty and nothing refuses is the model's deduction from these rules (log entry 9, DEDUCED), and the step between ticks
with nothing delivered takes a free input (log entry 3, the model's choice). -/
def Obligations.MachineNeverStops : Prop :=
  (∀ s : State, ∃ t, step s = .next t) ∧ ∀ (i : Instr) (s : State), ∃ t, exec i s = .next t

/-- R160, R168, R34: a step appends at most one record to the error log, takes none away, and only an instruction step appends;
that step then changes nothing but `PC`, by the default advance, and `SLOT`. Being inside a batch is a field of the model, log
entry 4. -/
def Obligations.ErrorLogGrowsByAtMostOneRecord : Prop :=
  ∀ s t : State, step s = .next t →
    (t.err = s.err ∨ ∃ e, t.err = s.err ++ [e] ∧ e ≠ .programTooLarge) ∧
    (t.err ≠ s.err → s.phase = .batch ∧ s.run = .running ∧ s.slot < s.ipf ∧
      t = { s with pc := s.pc + 2, err := t.err, slot := s.slot + 1 } ∧ SameMemory s t)

/-- R33, R175: while the core waits, no step fetches, and only a key-down edge between ticks (a phase, log entry 4) ends
the wait. -/
def Obligations.WaitLastsUntilAKeyDownEdge : Prop :=
  ∀ s t : State, s.run = .waitingForKey → step s = .next t →
    t.pc = s.pc ∧ t.i = s.i ∧ t.sp = s.sp ∧ t.stk = s.stk ∧ t.fb = s.fb ∧ t.err = s.err ∧ SameMemory s t ∧
    t.waitx = s.waitx ∧
    ((t.run = .waitingForKey ∧ t.v = s.v) ∨
     (t.run = .running ∧ s.phase = .gap ∧
       ∃ key : Nibble, s.keyHeld key = false ∧ t.keyHeld key = true ∧ (t.getV s.waitx).toNat = key.toNat ∧
         OtherRegsSame s t s.waitx))

/-- R177, R207, R140, R208: an instruction step changes neither the key latch nor what the outputs show nor the inputs.
The model's choices in it: the fields for the outputs and the inputs (log entries 10 and 3), that key events fall between ticks
only (14), and `t.phase = .batch` (4): after `LD Vx,K` and after the IPF-th instruction R144 (a) and R172 say the batch is over,
while the model's phase stays `batch` until the step that ends the tick. -/
def Obligations.LatchAndOutputsAreFixedInABatch : Prop :=
  ∀ s t : State, s.phase = .batch → s.run = .running → s.slot < s.ipf → step s = .next t →
    t.k = s.k ∧ t.output = s.output ∧ t.inputs = s.inputs ∧ t.inputCount = s.inputCount ∧ t.phase = .batch ∧
    t.ipf = s.ipf ∧ t.slot = s.slot + 1

/-- R29, R30, R206: no instruction but the two timer writes changes a timer. -/
def Obligations.OnlyTimerWritesChangeTimers : Prop :=
  ∀ (i : Instr) (s t : State), exec i s = .next t →
    ((∀ x, i ≠ .ldDtVx x) → t.dt = s.dt) ∧ ((∀ x, i ≠ .ldStVx x) → t.st = s.st)

/-! ### Whole-machine rules of the state (10_state) -/

/-- R28: the stack grows and shrinks only by call and return, by one, and never past its ends. -/
def Obligations.OnlyCallAndRetMoveTheStack : Prop :=
  ∀ (i : Instr) (s t : State), exec i s = .next t →
    ((∀ nnn, i ≠ .call nnn) → i ≠ .ret → t.sp = s.sp ∧ t.stk = s.stk) ∧
    (i = .ret → t.stk = s.stk ∧ t.sp.val = s.sp.val - 1) ∧
    ((∃ nnn, i = .call nnn) → t.sp.val = min 16 (s.sp.val + 1) ∧
      ∀ j : Fin 16, j.val ≠ s.sp.val → t.stk[j] = s.stk[j])

/-- R22, R123: an instruction that neither writes `VF` as a flag nor names it as a destination leaves it unchanged. -/
def Obligations.OnlyFlagWritersTouchVF : Prop :=
  ∀ (i : Instr) (s t : State), exec i s = .next t → ¬ WritesFlag i → ¬ NamesVF i → t.getV 15 = s.getV 15

/-- R53: no instruction but the bulk store and BCD changes a byte of memory. -/
def Obligations.OnlyTwoInstructionsStore : Prop :=
  ∀ (i : Instr) (s t : State), exec i s = .next t →
    (∀ x, i ≠ .storeRegs x) → (∀ x, i ≠ .ldBVx x) → SameMemory s t

/-- 10_state R27 (`PC` advances by 2 per fetched instruction unless an instruction sets it: jump, call, return, skip) and the
'written by' column of R20: no other instruction changes `PC` beyond the default advance. -/
def Obligations.OnlyControlFlowWritesPC : Prop :=
  ∀ (i : Instr) (s t : State), exec i s = .next t → t.pc ≠ s.pc →
    i = .ret ∨ (∃ n, i = .jp n ∨ i = .call n ∨ i = .jpV0 n) ∨
    (∃ x, i = .skp x ∨ i = .sknp x ∨ (∃ kk, i = .seImm x kk ∨ i = .sneImm x kk) ∨ ∃ y, i = .seReg x y ∨ i = .sneReg x y)

/-- R200 (b): at a self-jump an instruction step changes nothing but `SLOT`. -/
def Obligations.SelfJumpChangesNothingButTheSlot : Prop :=
  ∀ s : State, s.phase = .batch → s.run = .running → s.slot < s.ipf → atSelfJump s →
    step s = .next { s with slot := s.slot + 1 }

/-- The invariant of every step: memory in canonical form, `SLOT` within 0..IPF (R35), nothing counted or handed out before the
first tick (R196; the field for that window is the model's, log entry 11). -/
def Obligations.EveryStepKeepsTheInvariant : Prop :=
  ∀ s t : State, Inv s → step s = .next t → Inv t

/-- The invariant at reset. -/
def Obligations.ResetMeetsTheInvariant : Prop := Inv State.reset

/-- The host's acts keep the invariant too (R37: every change of state is a step, a reset, a load or an input). -/
def Obligations.HostActsKeepTheInvariant : Prop :=
  ∀ (a : HostAct) (s t : State), Inv s → hostStep a s = .next t → Inv t

/-! ### Reset and load (10_state R38, 70_reset_and_hazards) -/

/-- R38: the reset value of every piece of the spec's state. -/
def Obligations.ResetValuesAreAsListed : Prop :=
  (∀ a : Nat, a < 80 → State.reset.readByte a = Config.font.getD a 0) ∧
  (∀ a : Nat, 80 ≤ a → a < 4096 → State.reset.readByte a = 0) ∧
  (∀ x, State.reset.getV x = 0) ∧ State.reset.i = 0 ∧ State.reset.pc = 0x0200 ∧ State.reset.sp = 0 ∧
  (∀ j : Fin 16, State.reset.stk[j] = 0) ∧ State.reset.dt = 0 ∧ State.reset.st = 0 ∧
  (∀ key, State.reset.keyHeld key = false) ∧ (∀ y x : Nat, State.reset.fb.cell y x = false) ∧
  State.reset.run = .running ∧ State.reset.waitx = 0 ∧ State.reset.err = [] ∧ State.reset.slot = 0

/-- R190: a reset at any moment leaves every piece of the spec's state at its reset value, whatever it was. What it keeps of the
model's own fields is the model's choice, log entry 12. -/
def Obligations.HostResetForgetsTheState : Prop :=
  ∀ s : State, ∃ t, hostStep .reset s = .next t ∧
    t = { State.reset with
      ipfMinusOne := s.ipfMinusOne, inputs := s.inputs, inputCount := s.inputCount, drawCount := s.drawCount } ∧
    (∀ a : Nat, t.readByte a = State.reset.readByte a) ∧ (∀ x, t.getV x = 0) ∧ t.pc = 0x0200 ∧ t.err = []

/-- R196: the load between reset and the first tick: verbatim copy from 0x200, or one record and nothing copied; at another
moment no meaning (U12). The field that tells the moment is the model's choice, log entry 11. -/
def Obligations.LoadCopiesTheImageOrRecordsTooLarge : Prop :=
  ∀ (img : List Byte) (s : State),
    if s.loadable = false then hostStep (.load img) s = .refused .loadOutsideBoot
    else if 0x200 + img.length ≤ 4096 then
      ∃ t, hostStep (.load img) s = .next t ∧ (∀ j, j < img.length → t.readByte (0x200 + j) = img.getD j 0) ∧
        (∀ a : Nat, a < 4096 → (a < 0x200 ∨ 0x200 + img.length ≤ a) → t.readByte a = s.readByte a) ∧
        t = { s with mem := t.mem, loadable := false }
    else
      ∃ t, hostStep (.load img) s = .next t ∧ SameMemory s t ∧
        t = { s with err := s.err ++ [.programTooLarge], loadable := false }

/-! ### Control flow (40_control_flow) -/

/-- R100. -/
def Obligations.JumpSetsPC : Prop :=
  ∀ (nnn : Addr12) (s : State), Spells (0x1#4 ++ nnn) (.jp nnn) ∧
    ∃ t, exec (.jp nnn) s = .next t ∧ t.pc.toNat = nnn.toNat ∧ OnlyPc s t

/-- R101: sixteen return addresses fit; the next call records StackOverflow and falls through. -/
def Obligations.CallPushesAndJumpsOrOverflows : Prop :=
  ∀ (nnn : Addr12) (s : State), Spells (0x2#4 ++ nnn) (.call nnn) ∧
    ∃ t, exec (.call nnn) s = .next t ∧ SameMemory s t ∧
      (if s.sp.val = 16 then t = { s with err := s.err ++ [.stackOverflow] }
      else
        (∀ j : Fin 16, t.stk[j] = if j.val = s.sp.val then s.pc else s.stk[j]) ∧ t.sp.val = s.sp.val + 1 ∧
        t.pc.toNat = nnn.toNat ∧ t = { s with stk := t.stk, sp := t.sp, pc := t.pc })

/-- R102: the popped slot keeps its value; on an empty stack StackUnderflow is recorded and execution falls through. -/
def Obligations.ReturnPopsPCOrUnderflows : Prop :=
  Spells 0x00EE#16 .ret ∧ ∀ s : State,
    ∃ t, exec .ret s = .next t ∧ SameMemory s t ∧
      (if s.sp.val = 0 then t = { s with err := s.err ++ [.stackUnderflow] }
      else
        t.sp.val = s.sp.val - 1 ∧ (∀ j : Fin 16, j.val = s.sp.val - 1 → t.pc = s.stk[j]) ∧
        t = { s with sp := t.sp, pc := t.pc })

/-- R103, R104. -/
def Obligations.ImmediateSkipsCompareUnsigned : Prop :=
  ∀ (x : Nibble) (kk : Byte) (s : State),
    Spells (0x3#4 ++ x ++ kk) (.seImm x kk) ∧ Spells (0x4#4 ++ x ++ kk) (.sneImm x kk) ∧
    (∃ t, exec (.seImm x kk) s = .next t ∧ OnlyPc s t ∧
      t.pc.toNat = if s.getV x = kk then (s.pc.toNat + 2) % 65536 else s.pc.toNat) ∧
    ∃ t, exec (.sneImm x kk) s = .next t ∧ OnlyPc s t ∧
      t.pc.toNat = if s.getV x ≠ kk then (s.pc.toNat + 2) % 65536 else s.pc.toNat

/-- R105, R106, and the other trailing nibbles of their two families, which spell no instruction. -/
def Obligations.RegisterSkipsCompareRegisters : Prop :=
  ∀ (x y : Nibble) (s : State),
    Spells (0x5#4 ++ x ++ y ++ 0x0#4) (.seReg x y) ∧ Spells (0x9#4 ++ x ++ y ++ 0x0#4) (.sneReg x y) ∧
    (∀ n : Nibble, n ≠ 0 →
      decodeWord (0x5#4 ++ x ++ y ++ n) = .unknown (0x5#4 ++ x ++ y ++ n) ∧
      decodeWord (0x9#4 ++ x ++ y ++ n) = .unknown (0x9#4 ++ x ++ y ++ n)) ∧
    (∃ t, exec (.seReg x y) s = .next t ∧ OnlyPc s t ∧
      t.pc.toNat = if s.getV x = s.getV y then (s.pc.toNat + 2) % 65536 else s.pc.toNat) ∧
    ∃ t, exec (.sneReg x y) s = .next t ∧ OnlyPc s t ∧
      t.pc.toNat = if s.getV x ≠ s.getV y then (s.pc.toNat + 2) % 65536 else s.pc.toNat

/-- R107: the indexed jump, and Unknown without BNNN_ENABLED. -/
def Obligations.IndexedJumpAddsV0 : Prop :=
  ∀ (nnn : Addr12) (s : State),
    decodeWordWith true (0xB#4 ++ nnn) = .instr (.jpV0 nnn) ∧
    decodeWordWith false (0xB#4 ++ nnn) = .unknown (0xB#4 ++ nnn) ∧
    ∃ t, exec (.jpV0 nnn) s = .next t ∧ t.pc.toNat = (nnn.toNat + (s.getV 0).toNat) % 65536 ∧ OnlyPc s t

/-! ### Arithmetic (41_arithmetic) -/

/-- R110. -/
def Obligations.LoadImmediateWritesVx : Prop :=
  ∀ (x : Nibble) (kk : Byte) (s : State), Spells (0x6#4 ++ x ++ kk) (.ldImm x kk) ∧
    ∃ t, exec (.ldImm x kk) s = .next t ∧ t.getV x = kk ∧ OtherRegsSame s t x ∧ OnlyRegs s t

/-- R111: no flag, whatever the sum. -/
def Obligations.AddImmediateWrapsWithoutFlag : Prop :=
  ∀ (x : Nibble) (kk : Byte) (s : State), Spells (0x7#4 ++ x ++ kk) (.addImm x kk) ∧
    ∃ t, exec (.addImm x kk) s = .next t ∧ (t.getV x).toNat = ((s.getV x).toNat + kk.toNat) % 256 ∧
      OtherRegsSame s t x ∧ OnlyRegs s t

/-- R112. -/
def Obligations.CopyWritesVyToVx : Prop :=
  ∀ (x y : Nibble) (s : State), Spells (0x8#4 ++ x ++ y ++ 0x0#4) (.ldReg x y) ∧
    ∃ t, exec (.ldReg x y) s = .next t ∧ t.getV x = s.getV y ∧ OtherRegsSame s t x ∧ OnlyRegs s t

/-- R113, R114, R115, bit by bit; `VF` is an ordinary register here (R123). -/
def Obligations.LogicalOperationsAreBitwise : Prop :=
  ∀ (x y : Nibble) (s : State),
    Spells (0x8#4 ++ x ++ y ++ 0x1#4) (.orReg x y) ∧ Spells (0x8#4 ++ x ++ y ++ 0x2#4) (.andReg x y) ∧
    Spells (0x8#4 ++ x ++ y ++ 0x3#4) (.xorReg x y) ∧
    (∃ t, exec (.orReg x y) s = .next t ∧ OtherRegsSame s t x ∧ OnlyRegs s t ∧
      ∀ b : Nat, (t.getV x).getLsbD b = ((s.getV x).getLsbD b || (s.getV y).getLsbD b)) ∧
    (∃ t, exec (.andReg x y) s = .next t ∧ OtherRegsSame s t x ∧ OnlyRegs s t ∧
      ∀ b : Nat, (t.getV x).getLsbD b = ((s.getV x).getLsbD b && (s.getV y).getLsbD b)) ∧
    ∃ t, exec (.xorReg x y) s = .next t ∧ OtherRegsSame s t x ∧ OnlyRegs s t ∧
      ∀ b : Nat, (t.getV x).getLsbD b = ((s.getV x).getLsbD b != (s.getV y).getLsbD b)

/-- R116. -/
def Obligations.AddSetsCarry : Prop :=
  ∀ (x y : Nibble) (s : State), Spells (0x8#4 ++ x ++ y ++ 0x4#4) (.addReg x y) ∧
    ∃ t, exec (.addReg x y) s = .next t ∧ OnlyRegs s t ∧
      ResultAndFlag s t x (((s.getV x).toNat + (s.getV y).toNat) % 256) (255 < (s.getV x).toNat + (s.getV y).toNat)

/-- R117, R118. -/
def Obligations.SubtractionsSetNotBorrow : Prop :=
  ∀ (x y : Nibble) (s : State),
    Spells (0x8#4 ++ x ++ y ++ 0x5#4) (.subReg x y) ∧ Spells (0x8#4 ++ x ++ y ++ 0x7#4) (.subnReg x y) ∧
    (∃ t, exec (.subReg x y) s = .next t ∧ OnlyRegs s t ∧
      ResultAndFlag s t x ((256 + (s.getV x).toNat - (s.getV y).toNat) % 256)
        ((s.getV y).toNat ≤ (s.getV x).toNat)) ∧
    ∃ t, exec (.subnReg x y) s = .next t ∧ OnlyRegs s t ∧
      ResultAndFlag s t x ((256 + (s.getV y).toNat - (s.getV x).toNat) % 256)
        ((s.getV x).toNat ≤ (s.getV y).toNat)

/-- R119, under both conventions, and the instruction under this machine's. -/
def Obligations.ShiftRightSetsDroppedBit : Prop :=
  ∀ (src : ShiftSrc) (x y : Nibble) (s : State),
    Spells (0x8#4 ++ x ++ y ++ 0x6#4) (.shr x y) ∧
    exec (.shr x y) s = .next (s.shiftRight Config.shiftSrc x y) ∧
    OnlyRegs s (s.shiftRight src x y) ∧
    ResultAndFlag s (s.shiftRight src x y) x ((ShiftValue s src x y).toNat / 2)
      ((ShiftValue s src x y).toNat % 2 = 1)

/-- R120, under both conventions, and the instruction under this machine's. -/
def Obligations.ShiftLeftSetsDroppedBit : Prop :=
  ∀ (src : ShiftSrc) (x y : Nibble) (s : State),
    Spells (0x8#4 ++ x ++ y ++ 0xE#4) (.shl x y) ∧
    exec (.shl x y) s = .next (s.shiftLeft Config.shiftSrc x y) ∧
    OnlyRegs s (s.shiftLeft src x y) ∧
    ResultAndFlag s (s.shiftLeft src x y) x ((ShiftValue s src x y).toNat * 2 % 256)
      (128 ≤ (ShiftValue s src x y).toNat)

/-! ### Index and random (42_index, 43_random) -/

/-- R125. -/
def Obligations.LoadIndexSetsI : Prop :=
  ∀ (nnn : Addr12) (s : State), Spells (0xA#4 ++ nnn) (.ldI nnn) ∧
    ∃ t, exec (.ldI nnn) s = .next t ∧ t.i.toNat = nnn.toNat ∧ OnlyI s t

/-- R126: modulo 65536, no flag. -/
def Obligations.AddIndexWrapsWithoutFlag : Prop :=
  ∀ (x : Nibble) (s : State), Spells (0xF#4 ++ x ++ 0x1E#8) (.addIVx x) ∧
    ∃ t, exec (.addIVx x) s = .next t ∧ t.i.toNat = (s.i.toNat + (s.getV x).toNat) % 65536 ∧ OnlyI s t

/-- R127: the glyph of the low nibble. -/
def Obligations.GlyphAddressIsFiveTimesTheDigit : Prop :=
  ∀ (x : Nibble) (s : State), Spells (0xF#4 ++ x ++ 0x29#8) (.ldFVx x) ∧
    ∃ t, exec (.ldFVx x) s = .next t ∧ t.i.toNat = 5 * ((s.getV x).toNat % 16) ∧ OnlyI s t

/-- R130: a free byte under the mask. That the byte is the n-th of a free sequence is the model's form, log entry 2; the statement
holds for every sequence. -/
def Obligations.RandomByteIsMasked : Prop :=
  ∀ (x : Nibble) (kk : Byte) (s : State), Spells (0xC#4 ++ x ++ kk) (.rnd x kk) ∧
    ∃ t, exec (.rnd x kk) s = .next t ∧
      (∀ b : Nat, (t.getV x).getLsbD b = ((Config.draw s.drawCount).getLsbD b && kk.getLsbD b)) ∧
      OtherRegsSame s t x ∧ t = { s with v := t.v, drawCount := s.drawCount + 1 } ∧ SameMemory s t

/-! ### Memory transfer (44_memory_transfer) -/

/-- R132: the bytes stored, every other byte as before, and `I` advanced. -/
def Obligations.BulkStoreWritesTheLowRegisters : Prop :=
  ∀ (x : Nibble) (s : State), Spells (0xF#4 ++ x ++ 0x55#8) (.storeRegs x) ∧
    ∃ t, exec (.storeRegs x) s = .next t ∧
      (∀ j : Nibble, j.toNat ≤ x.toNat → t.readByte (s.i.toNat + j.toNat) = s.getV j) ∧
      (∀ a : Nat, (∀ j : Nibble, j.toNat ≤ x.toNat → a % 4096 ≠ (s.i.toNat + j.toNat) % 4096) →
        t.readByte a = s.readByte a) ∧
      t.i.toNat = (s.i.toNat + x.toNat + 1) % 65536 ∧ t = { s with mem := t.mem, i := t.i }

/-- R133: registers above `Vx` unchanged, and `I` advanced. -/
def Obligations.BulkLoadReadsTheLowRegisters : Prop :=
  ∀ (x : Nibble) (s : State), Spells (0xF#4 ++ x ++ 0x65#8) (.loadRegs x) ∧
    ∃ t, exec (.loadRegs x) s = .next t ∧
      (∀ j : Nibble, t.getV j = if j.toNat ≤ x.toNat then s.readByte (s.i.toNat + j.toNat) else s.getV j) ∧
      t.i.toNat = (s.i.toNat + x.toNat + 1) % 65536 ∧ t = { s with v := t.v, i := t.i } ∧ SameMemory s t

/-- R134: the three digits. That `I` is unchanged is marked there '[derived: from the silence of source §4.3 on I for this
instruction]'. -/
def Obligations.BcdStoresThreeDigits : Prop :=
  ∀ (x : Nibble) (s : State), Spells (0xF#4 ++ x ++ 0x33#8) (.ldBVx x) ∧
    ∃ t, exec (.ldBVx x) s = .next t ∧
      (t.readByte s.i.toNat).toNat = (s.getV x).toNat / 100 ∧
      (t.readByte (s.i.toNat + 1)).toNat = (s.getV x).toNat / 10 % 10 ∧
      (t.readByte (s.i.toNat + 2)).toNat = (s.getV x).toNat % 10 ∧
      (∀ a : Nat, (∀ j, j < 3 → a % 4096 ≠ (s.i.toNat + j) % 4096) → t.readByte a = s.readByte a) ∧
      t = { s with mem := t.mem }

/-! ### Display (45_display) -/

/-- R137. -/
def Obligations.ClearTurnsEveryCellOff : Prop :=
  Spells 0x00E0#16 .cls ∧ ∀ s : State,
    ∃ t, exec .cls s = .next t ∧ (∀ y x : Nat, t.fb.cell y x = false) ∧ t = { s with fb := t.fb } ∧ SameMemory s t

/-- R138, R139: a cell is toggled exactly when a sprite pixel lands on it, and `VF` is 1 exactly when some such cell was lit.
The case n = 0, which changes no cell and gives `VF` = 0, is marked in R138 '[derived: the loop body never runs]'. -/
def Obligations.DrawXorsTheSpriteAndReportsCollision : Prop :=
  ∀ (x y n : Nibble) (s : State), Spells (0xD#4 ++ x ++ y ++ n) (.drw x y n) ∧
    ∃ t, exec (.drw x y n) s = .next t ∧
      (∀ row col : Nat, row < 32 → col < 64 →
        (t.fb.cell row col = true ↔
          ¬ (s.fb.cell row col = true ↔ Lands s (s.getV x).toNat (s.getV y).toNat n.toNat row col))) ∧
      ((t.getV 15).toNat = 1 ∨ (t.getV 15).toNat = 0) ∧
      ((t.getV 15).toNat = 1 ↔ ∃ row col : Nat, row < 32 ∧ col < 64 ∧ s.fb.cell row col = true ∧
        Lands s (s.getV x).toNat (s.getV y).toNat n.toNat row col) ∧
      OtherRegsSame s t 15 ∧ t = { s with fb := t.fb, v := t.v } ∧ SameMemory s t

/-- R141 with its cautions, which it marks '[derived: from rule R138]', and 90_conflicts C9: the same sprite drawn again at the
same origin restores the framebuffer, and collides exactly when some pixel fell on a cell that was off before the first draw. A
first draw that overwrites an origin held in `VF` is left out: the second draw then has another origin. -/
def Obligations.DoubleDrawRestoresTheFramebuffer : Prop :=
  ∀ (x y n : Nibble) (s t u : State), exec (.drw x y n) s = .next t →
    t.getV x = s.getV x → t.getV y = s.getV y → exec (.drw x y n) t = .next u →
    u.fb = s.fb ∧
    ((u.getV 15).toNat = 1 ↔ ∃ row col : Nat, row < 32 ∧ col < 64 ∧ s.fb.cell row col = false ∧
      Lands s (s.getV x).toNat (s.getV y).toNat n.toNat row col)

/-! ### Input and timers (46_input, 47_timers) -/

/-- R142, R143, R145: the level of the key the low nibble names. -/
def Obligations.KeySkipsTestTheLevel : Prop :=
  ∀ (x : Nibble) (s : State),
    Spells (0xE#4 ++ x ++ 0x9E#8) (.skp x) ∧ Spells (0xE#4 ++ x ++ 0xA1#8) (.sknp x) ∧
    ∀ key : Nibble, key.toNat = (s.getV x).toNat % 16 →
      (∃ t, exec (.skp x) s = .next t ∧ OnlyPc s t ∧
        t.pc.toNat = if s.keyHeld key = true then (s.pc.toNat + 2) % 65536 else s.pc.toNat) ∧
      ∃ t, exec (.sknp x) s = .next t ∧ OnlyPc s t ∧
        t.pc.toNat = if s.keyHeld key = false then (s.pc.toNat + 2) % 65536 else s.pc.toNat

/-- R144: the wait is armed; no register is written and `PC` stays at the following instruction. -/
def Obligations.WaitForKeyArmsTheWait : Prop :=
  ∀ (x : Nibble) (s : State), Spells (0xF#4 ++ x ++ 0x0A#8) (.ldVxK x) ∧
    ∃ t, exec (.ldVxK x) s = .next t ∧ t.waitx = x ∧ t.run = .waitingForKey ∧
      t = { s with waitx := t.waitx, run := t.run } ∧ SameMemory s t

/-- R147. -/
def Obligations.ReadDelayTimerIntoVx : Prop :=
  ∀ (x : Nibble) (s : State), Spells (0xF#4 ++ x ++ 0x07#8) (.ldVxDt x) ∧
    ∃ t, exec (.ldVxDt x) s = .next t ∧ t.getV x = s.dt ∧ OtherRegsSame s t x ∧ OnlyRegs s t

/-- R148, R149. -/
def Obligations.TimerWritesSetTheTimers : Prop :=
  ∀ (x : Nibble) (s : State),
    Spells (0xF#4 ++ x ++ 0x15#8) (.ldDtVx x) ∧ Spells (0xF#4 ++ x ++ 0x18#8) (.ldStVx x) ∧
    (∃ t, exec (.ldDtVx x) s = .next t ∧ t.dt = s.getV x ∧ t = { s with dt := t.dt } ∧ SameMemory s t) ∧
    ∃ t, exec (.ldStVx x) s = .next t ∧ t.st = s.getV x ∧ t = { s with st := t.st } ∧ SameMemory s t
end

