-- ==== Sys2Proof/Laws/State.lean ====
section
/-! SUPPORT. The small lemmas of every state update: one per field per update, and for the updates that recurse or branch
one lemma per field they leave alone. -/

namespace Sys2Proof.Machine

/-! ### setV -/

@[simp] theorem State.setV_mem (s : State) (x : Nibble) (b : Byte) : (s.setV x b).mem = s.mem := rfl
@[simp] theorem State.setV_i (s : State) (x : Nibble) (b : Byte) : (s.setV x b).i = s.i := rfl
@[simp] theorem State.setV_pc (s : State) (x : Nibble) (b : Byte) : (s.setV x b).pc = s.pc := rfl
@[simp] theorem State.setV_sp (s : State) (x : Nibble) (b : Byte) : (s.setV x b).sp = s.sp := rfl
@[simp] theorem State.setV_stk (s : State) (x : Nibble) (b : Byte) : (s.setV x b).stk = s.stk := rfl
@[simp] theorem State.setV_dt (s : State) (x : Nibble) (b : Byte) : (s.setV x b).dt = s.dt := rfl
@[simp] theorem State.setV_st (s : State) (x : Nibble) (b : Byte) : (s.setV x b).st = s.st := rfl
@[simp] theorem State.setV_k (s : State) (x : Nibble) (b : Byte) : (s.setV x b).k = s.k := rfl
@[simp] theorem State.setV_fb (s : State) (x : Nibble) (b : Byte) : (s.setV x b).fb = s.fb := rfl
@[simp] theorem State.setV_run (s : State) (x : Nibble) (b : Byte) : (s.setV x b).run = s.run := rfl
@[simp] theorem State.setV_waitx (s : State) (x : Nibble) (b : Byte) : (s.setV x b).waitx = s.waitx := rfl
@[simp] theorem State.setV_err (s : State) (x : Nibble) (b : Byte) : (s.setV x b).err = s.err := rfl
@[simp] theorem State.setV_slot (s : State) (x : Nibble) (b : Byte) : (s.setV x b).slot = s.slot := rfl
@[simp] theorem State.setV_ipfMinusOne (s : State) (x : Nibble) (b : Byte) : (s.setV x b).ipfMinusOne = s.ipfMinusOne := rfl
@[simp] theorem State.setV_phase (s : State) (x : Nibble) (b : Byte) : (s.setV x b).phase = s.phase := rfl
@[simp] theorem State.setV_loadable (s : State) (x : Nibble) (b : Byte) : (s.setV x b).loadable = s.loadable := rfl
@[simp] theorem State.setV_inputs (s : State) (x : Nibble) (b : Byte) : (s.setV x b).inputs = s.inputs := rfl
@[simp] theorem State.setV_inputCount (s : State) (x : Nibble) (b : Byte) : (s.setV x b).inputCount = s.inputCount := rfl
@[simp] theorem State.setV_drawCount (s : State) (x : Nibble) (b : Byte) : (s.setV x b).drawCount = s.drawCount := rfl
@[simp] theorem State.setV_output (s : State) (x : Nibble) (b : Byte) : (s.setV x b).output = s.output := rfl

/-! ### setI -/

@[simp] theorem State.setI_mem (s : State) (a : Word) : (s.setI a).mem = s.mem := rfl
@[simp] theorem State.setI_v (s : State) (a : Word) : (s.setI a).v = s.v := rfl
@[simp] theorem State.setI_i (s : State) (a : Word) : (s.setI a).i = a := rfl
@[simp] theorem State.setI_pc (s : State) (a : Word) : (s.setI a).pc = s.pc := rfl
@[simp] theorem State.setI_sp (s : State) (a : Word) : (s.setI a).sp = s.sp := rfl
@[simp] theorem State.setI_stk (s : State) (a : Word) : (s.setI a).stk = s.stk := rfl
@[simp] theorem State.setI_dt (s : State) (a : Word) : (s.setI a).dt = s.dt := rfl
@[simp] theorem State.setI_st (s : State) (a : Word) : (s.setI a).st = s.st := rfl
@[simp] theorem State.setI_k (s : State) (a : Word) : (s.setI a).k = s.k := rfl
@[simp] theorem State.setI_fb (s : State) (a : Word) : (s.setI a).fb = s.fb := rfl
@[simp] theorem State.setI_run (s : State) (a : Word) : (s.setI a).run = s.run := rfl
@[simp] theorem State.setI_waitx (s : State) (a : Word) : (s.setI a).waitx = s.waitx := rfl
@[simp] theorem State.setI_err (s : State) (a : Word) : (s.setI a).err = s.err := rfl
@[simp] theorem State.setI_slot (s : State) (a : Word) : (s.setI a).slot = s.slot := rfl
@[simp] theorem State.setI_ipfMinusOne (s : State) (a : Word) : (s.setI a).ipfMinusOne = s.ipfMinusOne := rfl
@[simp] theorem State.setI_phase (s : State) (a : Word) : (s.setI a).phase = s.phase := rfl
@[simp] theorem State.setI_loadable (s : State) (a : Word) : (s.setI a).loadable = s.loadable := rfl
@[simp] theorem State.setI_inputs (s : State) (a : Word) : (s.setI a).inputs = s.inputs := rfl
@[simp] theorem State.setI_inputCount (s : State) (a : Word) : (s.setI a).inputCount = s.inputCount := rfl
@[simp] theorem State.setI_drawCount (s : State) (a : Word) : (s.setI a).drawCount = s.drawCount := rfl
@[simp] theorem State.setI_output (s : State) (a : Word) : (s.setI a).output = s.output := rfl

/-! ### setPc -/

@[simp] theorem State.setPc_mem (s : State) (a : Word) : (s.setPc a).mem = s.mem := rfl
@[simp] theorem State.setPc_v (s : State) (a : Word) : (s.setPc a).v = s.v := rfl
@[simp] theorem State.setPc_i (s : State) (a : Word) : (s.setPc a).i = s.i := rfl
@[simp] theorem State.setPc_pc (s : State) (a : Word) : (s.setPc a).pc = a := rfl
@[simp] theorem State.setPc_sp (s : State) (a : Word) : (s.setPc a).sp = s.sp := rfl
@[simp] theorem State.setPc_stk (s : State) (a : Word) : (s.setPc a).stk = s.stk := rfl
@[simp] theorem State.setPc_dt (s : State) (a : Word) : (s.setPc a).dt = s.dt := rfl
@[simp] theorem State.setPc_st (s : State) (a : Word) : (s.setPc a).st = s.st := rfl
@[simp] theorem State.setPc_k (s : State) (a : Word) : (s.setPc a).k = s.k := rfl
@[simp] theorem State.setPc_fb (s : State) (a : Word) : (s.setPc a).fb = s.fb := rfl
@[simp] theorem State.setPc_run (s : State) (a : Word) : (s.setPc a).run = s.run := rfl
@[simp] theorem State.setPc_waitx (s : State) (a : Word) : (s.setPc a).waitx = s.waitx := rfl
@[simp] theorem State.setPc_err (s : State) (a : Word) : (s.setPc a).err = s.err := rfl
@[simp] theorem State.setPc_slot (s : State) (a : Word) : (s.setPc a).slot = s.slot := rfl
@[simp] theorem State.setPc_ipfMinusOne (s : State) (a : Word) : (s.setPc a).ipfMinusOne = s.ipfMinusOne := rfl
@[simp] theorem State.setPc_phase (s : State) (a : Word) : (s.setPc a).phase = s.phase := rfl
@[simp] theorem State.setPc_loadable (s : State) (a : Word) : (s.setPc a).loadable = s.loadable := rfl
@[simp] theorem State.setPc_inputs (s : State) (a : Word) : (s.setPc a).inputs = s.inputs := rfl
@[simp] theorem State.setPc_inputCount (s : State) (a : Word) : (s.setPc a).inputCount = s.inputCount := rfl
@[simp] theorem State.setPc_drawCount (s : State) (a : Word) : (s.setPc a).drawCount = s.drawCount := rfl
@[simp] theorem State.setPc_output (s : State) (a : Word) : (s.setPc a).output = s.output := rfl

/-! ### raise -/

@[simp] theorem State.raise_mem (s : State) (e : ErrorRecord) : (s.raise e).mem = s.mem := rfl
@[simp] theorem State.raise_v (s : State) (e : ErrorRecord) : (s.raise e).v = s.v := rfl
@[simp] theorem State.raise_i (s : State) (e : ErrorRecord) : (s.raise e).i = s.i := rfl
@[simp] theorem State.raise_pc (s : State) (e : ErrorRecord) : (s.raise e).pc = s.pc := rfl
@[simp] theorem State.raise_sp (s : State) (e : ErrorRecord) : (s.raise e).sp = s.sp := rfl
@[simp] theorem State.raise_stk (s : State) (e : ErrorRecord) : (s.raise e).stk = s.stk := rfl
@[simp] theorem State.raise_dt (s : State) (e : ErrorRecord) : (s.raise e).dt = s.dt := rfl
@[simp] theorem State.raise_st (s : State) (e : ErrorRecord) : (s.raise e).st = s.st := rfl
@[simp] theorem State.raise_k (s : State) (e : ErrorRecord) : (s.raise e).k = s.k := rfl
@[simp] theorem State.raise_fb (s : State) (e : ErrorRecord) : (s.raise e).fb = s.fb := rfl
@[simp] theorem State.raise_run (s : State) (e : ErrorRecord) : (s.raise e).run = s.run := rfl
@[simp] theorem State.raise_waitx (s : State) (e : ErrorRecord) : (s.raise e).waitx = s.waitx := rfl
@[simp] theorem State.raise_err (s : State) (e : ErrorRecord) : (s.raise e).err = s.err ++ [e] := rfl
@[simp] theorem State.raise_slot (s : State) (e : ErrorRecord) : (s.raise e).slot = s.slot := rfl
@[simp] theorem State.raise_ipfMinusOne (s : State) (e : ErrorRecord) : (s.raise e).ipfMinusOne = s.ipfMinusOne := rfl
@[simp] theorem State.raise_phase (s : State) (e : ErrorRecord) : (s.raise e).phase = s.phase := rfl
@[simp] theorem State.raise_loadable (s : State) (e : ErrorRecord) : (s.raise e).loadable = s.loadable := rfl
@[simp] theorem State.raise_inputs (s : State) (e : ErrorRecord) : (s.raise e).inputs = s.inputs := rfl
@[simp] theorem State.raise_inputCount (s : State) (e : ErrorRecord) : (s.raise e).inputCount = s.inputCount := rfl
@[simp] theorem State.raise_drawCount (s : State) (e : ErrorRecord) : (s.raise e).drawCount = s.drawCount := rfl
@[simp] theorem State.raise_output (s : State) (e : ErrorRecord) : (s.raise e).output = s.output := rfl

/-! ### setKey -/

@[simp] theorem State.setKey_mem (s : State) (key : Nibble) (down : Bool) : (s.setKey key down).mem = s.mem := rfl
@[simp] theorem State.setKey_v (s : State) (key : Nibble) (down : Bool) : (s.setKey key down).v = s.v := rfl
@[simp] theorem State.setKey_i (s : State) (key : Nibble) (down : Bool) : (s.setKey key down).i = s.i := rfl
@[simp] theorem State.setKey_pc (s : State) (key : Nibble) (down : Bool) : (s.setKey key down).pc = s.pc := rfl
@[simp] theorem State.setKey_sp (s : State) (key : Nibble) (down : Bool) : (s.setKey key down).sp = s.sp := rfl
@[simp] theorem State.setKey_stk (s : State) (key : Nibble) (down : Bool) : (s.setKey key down).stk = s.stk := rfl
@[simp] theorem State.setKey_dt (s : State) (key : Nibble) (down : Bool) : (s.setKey key down).dt = s.dt := rfl
@[simp] theorem State.setKey_st (s : State) (key : Nibble) (down : Bool) : (s.setKey key down).st = s.st := rfl
@[simp] theorem State.setKey_fb (s : State) (key : Nibble) (down : Bool) : (s.setKey key down).fb = s.fb := rfl
@[simp] theorem State.setKey_run (s : State) (key : Nibble) (down : Bool) : (s.setKey key down).run = s.run := rfl
@[simp] theorem State.setKey_waitx (s : State) (key : Nibble) (down : Bool) : (s.setKey key down).waitx = s.waitx := rfl
@[simp] theorem State.setKey_err (s : State) (key : Nibble) (down : Bool) : (s.setKey key down).err = s.err := rfl
@[simp] theorem State.setKey_slot (s : State) (key : Nibble) (down : Bool) : (s.setKey key down).slot = s.slot := rfl
@[simp] theorem State.setKey_ipfMinusOne (s : State) (key : Nibble) (down : Bool) : (s.setKey key down).ipfMinusOne = s.ipfMinusOne := rfl
@[simp] theorem State.setKey_phase (s : State) (key : Nibble) (down : Bool) : (s.setKey key down).phase = s.phase := rfl
@[simp] theorem State.setKey_loadable (s : State) (key : Nibble) (down : Bool) : (s.setKey key down).loadable = s.loadable := rfl
@[simp] theorem State.setKey_inputs (s : State) (key : Nibble) (down : Bool) : (s.setKey key down).inputs = s.inputs := rfl
@[simp] theorem State.setKey_inputCount (s : State) (key : Nibble) (down : Bool) : (s.setKey key down).inputCount = s.inputCount := rfl
@[simp] theorem State.setKey_drawCount (s : State) (key : Nibble) (down : Bool) : (s.setKey key down).drawCount = s.drawCount := rfl
@[simp] theorem State.setKey_output (s : State) (key : Nibble) (down : Bool) : (s.setKey key down).output = s.output := rfl

/-! ### writeByte -/

@[simp] theorem State.writeByte_v (s : State) (addr : Nat) (b : Byte) : (s.writeByte addr b).v = s.v := rfl
@[simp] theorem State.writeByte_i (s : State) (addr : Nat) (b : Byte) : (s.writeByte addr b).i = s.i := rfl
@[simp] theorem State.writeByte_pc (s : State) (addr : Nat) (b : Byte) : (s.writeByte addr b).pc = s.pc := rfl
@[simp] theorem State.writeByte_sp (s : State) (addr : Nat) (b : Byte) : (s.writeByte addr b).sp = s.sp := rfl
@[simp] theorem State.writeByte_stk (s : State) (addr : Nat) (b : Byte) : (s.writeByte addr b).stk = s.stk := rfl
@[simp] theorem State.writeByte_dt (s : State) (addr : Nat) (b : Byte) : (s.writeByte addr b).dt = s.dt := rfl
@[simp] theorem State.writeByte_st (s : State) (addr : Nat) (b : Byte) : (s.writeByte addr b).st = s.st := rfl
@[simp] theorem State.writeByte_k (s : State) (addr : Nat) (b : Byte) : (s.writeByte addr b).k = s.k := rfl
@[simp] theorem State.writeByte_fb (s : State) (addr : Nat) (b : Byte) : (s.writeByte addr b).fb = s.fb := rfl
@[simp] theorem State.writeByte_run (s : State) (addr : Nat) (b : Byte) : (s.writeByte addr b).run = s.run := rfl
@[simp] theorem State.writeByte_waitx (s : State) (addr : Nat) (b : Byte) : (s.writeByte addr b).waitx = s.waitx := rfl
@[simp] theorem State.writeByte_err (s : State) (addr : Nat) (b : Byte) : (s.writeByte addr b).err = s.err := rfl
@[simp] theorem State.writeByte_slot (s : State) (addr : Nat) (b : Byte) : (s.writeByte addr b).slot = s.slot := rfl
@[simp] theorem State.writeByte_ipfMinusOne (s : State) (addr : Nat) (b : Byte) : (s.writeByte addr b).ipfMinusOne = s.ipfMinusOne := rfl
@[simp] theorem State.writeByte_phase (s : State) (addr : Nat) (b : Byte) : (s.writeByte addr b).phase = s.phase := rfl
@[simp] theorem State.writeByte_loadable (s : State) (addr : Nat) (b : Byte) : (s.writeByte addr b).loadable = s.loadable := rfl
@[simp] theorem State.writeByte_inputs (s : State) (addr : Nat) (b : Byte) : (s.writeByte addr b).inputs = s.inputs := rfl
@[simp] theorem State.writeByte_inputCount (s : State) (addr : Nat) (b : Byte) : (s.writeByte addr b).inputCount = s.inputCount := rfl
@[simp] theorem State.writeByte_drawCount (s : State) (addr : Nat) (b : Byte) : (s.writeByte addr b).drawCount = s.drawCount := rfl
@[simp] theorem State.writeByte_output (s : State) (addr : Nat) (b : Byte) : (s.writeByte addr b).output = s.output := rfl

/-! ### setFlag -/

@[simp] theorem State.setFlag_mem (s : State) (f : Bool) : (s.setFlag f).mem = s.mem := rfl
@[simp] theorem State.setFlag_i (s : State) (f : Bool) : (s.setFlag f).i = s.i := rfl
@[simp] theorem State.setFlag_pc (s : State) (f : Bool) : (s.setFlag f).pc = s.pc := rfl
@[simp] theorem State.setFlag_sp (s : State) (f : Bool) : (s.setFlag f).sp = s.sp := rfl
@[simp] theorem State.setFlag_stk (s : State) (f : Bool) : (s.setFlag f).stk = s.stk := rfl
@[simp] theorem State.setFlag_dt (s : State) (f : Bool) : (s.setFlag f).dt = s.dt := rfl
@[simp] theorem State.setFlag_st (s : State) (f : Bool) : (s.setFlag f).st = s.st := rfl
@[simp] theorem State.setFlag_k (s : State) (f : Bool) : (s.setFlag f).k = s.k := rfl
@[simp] theorem State.setFlag_fb (s : State) (f : Bool) : (s.setFlag f).fb = s.fb := rfl
@[simp] theorem State.setFlag_run (s : State) (f : Bool) : (s.setFlag f).run = s.run := rfl
@[simp] theorem State.setFlag_waitx (s : State) (f : Bool) : (s.setFlag f).waitx = s.waitx := rfl
@[simp] theorem State.setFlag_err (s : State) (f : Bool) : (s.setFlag f).err = s.err := rfl
@[simp] theorem State.setFlag_slot (s : State) (f : Bool) : (s.setFlag f).slot = s.slot := rfl
@[simp] theorem State.setFlag_ipfMinusOne (s : State) (f : Bool) : (s.setFlag f).ipfMinusOne = s.ipfMinusOne := rfl
@[simp] theorem State.setFlag_phase (s : State) (f : Bool) : (s.setFlag f).phase = s.phase := rfl
@[simp] theorem State.setFlag_loadable (s : State) (f : Bool) : (s.setFlag f).loadable = s.loadable := rfl
@[simp] theorem State.setFlag_inputs (s : State) (f : Bool) : (s.setFlag f).inputs = s.inputs := rfl
@[simp] theorem State.setFlag_inputCount (s : State) (f : Bool) : (s.setFlag f).inputCount = s.inputCount := rfl
@[simp] theorem State.setFlag_drawCount (s : State) (f : Bool) : (s.setFlag f).drawCount = s.drawCount := rfl
@[simp] theorem State.setFlag_output (s : State) (f : Bool) : (s.setFlag f).output = s.output := rfl

/-! ### setResult -/

@[simp] theorem State.setResult_mem (s : State) (x : Nibble) (r : Byte) (f : Bool) : (s.setResult x r f).mem = s.mem := rfl
@[simp] theorem State.setResult_i (s : State) (x : Nibble) (r : Byte) (f : Bool) : (s.setResult x r f).i = s.i := rfl
@[simp] theorem State.setResult_pc (s : State) (x : Nibble) (r : Byte) (f : Bool) : (s.setResult x r f).pc = s.pc := rfl
@[simp] theorem State.setResult_sp (s : State) (x : Nibble) (r : Byte) (f : Bool) : (s.setResult x r f).sp = s.sp := rfl
@[simp] theorem State.setResult_stk (s : State) (x : Nibble) (r : Byte) (f : Bool) : (s.setResult x r f).stk = s.stk := rfl
@[simp] theorem State.setResult_dt (s : State) (x : Nibble) (r : Byte) (f : Bool) : (s.setResult x r f).dt = s.dt := rfl
@[simp] theorem State.setResult_st (s : State) (x : Nibble) (r : Byte) (f : Bool) : (s.setResult x r f).st = s.st := rfl
@[simp] theorem State.setResult_k (s : State) (x : Nibble) (r : Byte) (f : Bool) : (s.setResult x r f).k = s.k := rfl
@[simp] theorem State.setResult_fb (s : State) (x : Nibble) (r : Byte) (f : Bool) : (s.setResult x r f).fb = s.fb := rfl
@[simp] theorem State.setResult_run (s : State) (x : Nibble) (r : Byte) (f : Bool) : (s.setResult x r f).run = s.run := rfl
@[simp] theorem State.setResult_waitx (s : State) (x : Nibble) (r : Byte) (f : Bool) : (s.setResult x r f).waitx = s.waitx := rfl
@[simp] theorem State.setResult_err (s : State) (x : Nibble) (r : Byte) (f : Bool) : (s.setResult x r f).err = s.err := rfl
@[simp] theorem State.setResult_slot (s : State) (x : Nibble) (r : Byte) (f : Bool) : (s.setResult x r f).slot = s.slot := rfl
@[simp] theorem State.setResult_ipfMinusOne (s : State) (x : Nibble) (r : Byte) (f : Bool) : (s.setResult x r f).ipfMinusOne = s.ipfMinusOne := rfl
@[simp] theorem State.setResult_phase (s : State) (x : Nibble) (r : Byte) (f : Bool) : (s.setResult x r f).phase = s.phase := rfl
@[simp] theorem State.setResult_loadable (s : State) (x : Nibble) (r : Byte) (f : Bool) : (s.setResult x r f).loadable = s.loadable := rfl
@[simp] theorem State.setResult_inputs (s : State) (x : Nibble) (r : Byte) (f : Bool) : (s.setResult x r f).inputs = s.inputs := rfl
@[simp] theorem State.setResult_inputCount (s : State) (x : Nibble) (r : Byte) (f : Bool) : (s.setResult x r f).inputCount = s.inputCount := rfl
@[simp] theorem State.setResult_drawCount (s : State) (x : Nibble) (r : Byte) (f : Bool) : (s.setResult x r f).drawCount = s.drawCount := rfl
@[simp] theorem State.setResult_output (s : State) (x : Nibble) (r : Byte) (f : Bool) : (s.setResult x r f).output = s.output := rfl

/-! ### loadLowRegs -/

@[simp] theorem State.loadLowRegs_mem (s : State) (base : Nat) (x : Nibble) : (s.loadLowRegs base x).mem = s.mem := rfl
@[simp] theorem State.loadLowRegs_i (s : State) (base : Nat) (x : Nibble) : (s.loadLowRegs base x).i = s.i := rfl
@[simp] theorem State.loadLowRegs_pc (s : State) (base : Nat) (x : Nibble) : (s.loadLowRegs base x).pc = s.pc := rfl
@[simp] theorem State.loadLowRegs_sp (s : State) (base : Nat) (x : Nibble) : (s.loadLowRegs base x).sp = s.sp := rfl
@[simp] theorem State.loadLowRegs_stk (s : State) (base : Nat) (x : Nibble) : (s.loadLowRegs base x).stk = s.stk := rfl
@[simp] theorem State.loadLowRegs_dt (s : State) (base : Nat) (x : Nibble) : (s.loadLowRegs base x).dt = s.dt := rfl
@[simp] theorem State.loadLowRegs_st (s : State) (base : Nat) (x : Nibble) : (s.loadLowRegs base x).st = s.st := rfl
@[simp] theorem State.loadLowRegs_k (s : State) (base : Nat) (x : Nibble) : (s.loadLowRegs base x).k = s.k := rfl
@[simp] theorem State.loadLowRegs_fb (s : State) (base : Nat) (x : Nibble) : (s.loadLowRegs base x).fb = s.fb := rfl
@[simp] theorem State.loadLowRegs_run (s : State) (base : Nat) (x : Nibble) : (s.loadLowRegs base x).run = s.run := rfl
@[simp] theorem State.loadLowRegs_waitx (s : State) (base : Nat) (x : Nibble) : (s.loadLowRegs base x).waitx = s.waitx := rfl
@[simp] theorem State.loadLowRegs_err (s : State) (base : Nat) (x : Nibble) : (s.loadLowRegs base x).err = s.err := rfl
@[simp] theorem State.loadLowRegs_slot (s : State) (base : Nat) (x : Nibble) : (s.loadLowRegs base x).slot = s.slot := rfl
@[simp] theorem State.loadLowRegs_ipfMinusOne (s : State) (base : Nat) (x : Nibble) : (s.loadLowRegs base x).ipfMinusOne = s.ipfMinusOne := rfl
@[simp] theorem State.loadLowRegs_phase (s : State) (base : Nat) (x : Nibble) : (s.loadLowRegs base x).phase = s.phase := rfl
@[simp] theorem State.loadLowRegs_loadable (s : State) (base : Nat) (x : Nibble) : (s.loadLowRegs base x).loadable = s.loadable := rfl
@[simp] theorem State.loadLowRegs_inputs (s : State) (base : Nat) (x : Nibble) : (s.loadLowRegs base x).inputs = s.inputs := rfl
@[simp] theorem State.loadLowRegs_inputCount (s : State) (base : Nat) (x : Nibble) : (s.loadLowRegs base x).inputCount = s.inputCount := rfl
@[simp] theorem State.loadLowRegs_drawCount (s : State) (base : Nat) (x : Nibble) : (s.loadLowRegs base x).drawCount = s.drawCount := rfl
@[simp] theorem State.loadLowRegs_output (s : State) (base : Nat) (x : Nibble) : (s.loadLowRegs base x).output = s.output := rfl

/-! ### skipIf and writeBytes -/

@[simp] theorem State.skipIf_mem (s : State) (c : Bool) : (s.skipIf c).mem = s.mem := by cases c <;> rfl
@[simp] theorem State.skipIf_v (s : State) (c : Bool) : (s.skipIf c).v = s.v := by cases c <;> rfl
@[simp] theorem State.skipIf_i (s : State) (c : Bool) : (s.skipIf c).i = s.i := by cases c <;> rfl
@[simp] theorem State.skipIf_sp (s : State) (c : Bool) : (s.skipIf c).sp = s.sp := by cases c <;> rfl
@[simp] theorem State.skipIf_stk (s : State) (c : Bool) : (s.skipIf c).stk = s.stk := by cases c <;> rfl
@[simp] theorem State.skipIf_dt (s : State) (c : Bool) : (s.skipIf c).dt = s.dt := by cases c <;> rfl
@[simp] theorem State.skipIf_st (s : State) (c : Bool) : (s.skipIf c).st = s.st := by cases c <;> rfl
@[simp] theorem State.skipIf_k (s : State) (c : Bool) : (s.skipIf c).k = s.k := by cases c <;> rfl
@[simp] theorem State.skipIf_fb (s : State) (c : Bool) : (s.skipIf c).fb = s.fb := by cases c <;> rfl
@[simp] theorem State.skipIf_run (s : State) (c : Bool) : (s.skipIf c).run = s.run := by cases c <;> rfl
@[simp] theorem State.skipIf_waitx (s : State) (c : Bool) : (s.skipIf c).waitx = s.waitx := by cases c <;> rfl
@[simp] theorem State.skipIf_err (s : State) (c : Bool) : (s.skipIf c).err = s.err := by cases c <;> rfl
@[simp] theorem State.skipIf_slot (s : State) (c : Bool) : (s.skipIf c).slot = s.slot := by cases c <;> rfl
@[simp] theorem State.skipIf_ipfMinusOne (s : State) (c : Bool) : (s.skipIf c).ipfMinusOne = s.ipfMinusOne := by cases c <;> rfl
@[simp] theorem State.skipIf_phase (s : State) (c : Bool) : (s.skipIf c).phase = s.phase := by cases c <;> rfl
@[simp] theorem State.skipIf_loadable (s : State) (c : Bool) : (s.skipIf c).loadable = s.loadable := by cases c <;> rfl
@[simp] theorem State.skipIf_inputs (s : State) (c : Bool) : (s.skipIf c).inputs = s.inputs := by cases c <;> rfl
@[simp] theorem State.skipIf_inputCount (s : State) (c : Bool) : (s.skipIf c).inputCount = s.inputCount := by cases c <;> rfl
@[simp] theorem State.skipIf_drawCount (s : State) (c : Bool) : (s.skipIf c).drawCount = s.drawCount := by cases c <;> rfl
@[simp] theorem State.skipIf_output (s : State) (c : Bool) : (s.skipIf c).output = s.output := by cases c <;> rfl

/-- A store of many bytes changes memory and nothing else. -/
theorem State.writeBytes_eq (s : State) (addr : Nat) (bs : List Byte) :
    s.writeBytes addr bs = { s with mem := (s.writeBytes addr bs).mem } := by
  induction bs generalizing s addr with
  | nil => rfl
  | cons b rest ih => rw [State.writeBytes, ih]; rfl

@[simp] theorem State.writeBytes_v (s : State) (addr : Nat) (bs : List Byte) : (s.writeBytes addr bs).v = s.v := by
  rw [State.writeBytes_eq]
@[simp] theorem State.writeBytes_i (s : State) (addr : Nat) (bs : List Byte) : (s.writeBytes addr bs).i = s.i := by
  rw [State.writeBytes_eq]
@[simp] theorem State.writeBytes_pc (s : State) (addr : Nat) (bs : List Byte) : (s.writeBytes addr bs).pc = s.pc := by
  rw [State.writeBytes_eq]
@[simp] theorem State.writeBytes_sp (s : State) (addr : Nat) (bs : List Byte) : (s.writeBytes addr bs).sp = s.sp := by
  rw [State.writeBytes_eq]
@[simp] theorem State.writeBytes_stk (s : State) (addr : Nat) (bs : List Byte) : (s.writeBytes addr bs).stk = s.stk := by
  rw [State.writeBytes_eq]
@[simp] theorem State.writeBytes_dt (s : State) (addr : Nat) (bs : List Byte) : (s.writeBytes addr bs).dt = s.dt := by
  rw [State.writeBytes_eq]
@[simp] theorem State.writeBytes_st (s : State) (addr : Nat) (bs : List Byte) : (s.writeBytes addr bs).st = s.st := by
  rw [State.writeBytes_eq]
@[simp] theorem State.writeBytes_k (s : State) (addr : Nat) (bs : List Byte) : (s.writeBytes addr bs).k = s.k := by
  rw [State.writeBytes_eq]
@[simp] theorem State.writeBytes_fb (s : State) (addr : Nat) (bs : List Byte) : (s.writeBytes addr bs).fb = s.fb := by
  rw [State.writeBytes_eq]
@[simp] theorem State.writeBytes_run (s : State) (addr : Nat) (bs : List Byte) : (s.writeBytes addr bs).run = s.run := by
  rw [State.writeBytes_eq]
@[simp] theorem State.writeBytes_waitx (s : State) (addr : Nat) (bs : List Byte) : (s.writeBytes addr bs).waitx = s.waitx := by
  rw [State.writeBytes_eq]
@[simp] theorem State.writeBytes_err (s : State) (addr : Nat) (bs : List Byte) : (s.writeBytes addr bs).err = s.err := by
  rw [State.writeBytes_eq]
@[simp] theorem State.writeBytes_slot (s : State) (addr : Nat) (bs : List Byte) : (s.writeBytes addr bs).slot = s.slot := by
  rw [State.writeBytes_eq]
@[simp] theorem State.writeBytes_ipfMinusOne (s : State) (addr : Nat) (bs : List Byte) : (s.writeBytes addr bs).ipfMinusOne = s.ipfMinusOne := by
  rw [State.writeBytes_eq]
@[simp] theorem State.writeBytes_phase (s : State) (addr : Nat) (bs : List Byte) : (s.writeBytes addr bs).phase = s.phase := by
  rw [State.writeBytes_eq]
@[simp] theorem State.writeBytes_loadable (s : State) (addr : Nat) (bs : List Byte) : (s.writeBytes addr bs).loadable = s.loadable := by
  rw [State.writeBytes_eq]
@[simp] theorem State.writeBytes_inputs (s : State) (addr : Nat) (bs : List Byte) : (s.writeBytes addr bs).inputs = s.inputs := by
  rw [State.writeBytes_eq]
@[simp] theorem State.writeBytes_inputCount (s : State) (addr : Nat) (bs : List Byte) : (s.writeBytes addr bs).inputCount = s.inputCount := by
  rw [State.writeBytes_eq]
@[simp] theorem State.writeBytes_drawCount (s : State) (addr : Nat) (bs : List Byte) : (s.writeBytes addr bs).drawCount = s.drawCount := by
  rw [State.writeBytes_eq]
@[simp] theorem State.writeBytes_output (s : State) (addr : Nat) (bs : List Byte) : (s.writeBytes addr bs).output = s.output := by
  rw [State.writeBytes_eq]

/-- A skip moves `PC` by two more when its condition holds. -/
theorem State.skipIf_pc (s : State) (c : Bool) : (s.skipIf c).pc = if c then s.pc + 2 else s.pc := by cases c <;> rfl

end Sys2Proof.Machine
end

