-- ==== Sys2Proof/Laws/Memory.lean ====
section
/-! SUPPORT. The laws of memory: what a read gives after a store, that addresses 4096 apart name one cell, and that every
store keeps the canonical form. The read laws need no canonical form. -/

namespace Sys2Proof.Machine

theorem Memory.lookup_erase_same (m : List Host.Cell) (a : Nat) :
    Memory.lookup (Memory.erase m a) a = resetByte a := by
  induction m with
  | nil => rfl
  | cons c rest ih =>
    obtain ⟨b, w⟩ := c
    by_cases h : b = a <;> simp [Memory.erase, Memory.lookup, h, ih]

theorem Memory.lookup_erase_other (m : List Host.Cell) {a b : Nat} (h : b ≠ a) :
    Memory.lookup (Memory.erase m a) b = Memory.lookup m b := by
  induction m with
  | nil => rfl
  | cons c rest ih =>
    obtain ⟨d, w⟩ := c
    by_cases hd : d = a
    · subst hd; simp [Memory.erase, Memory.lookup, ih, Ne.symm h]
    · simp [Memory.erase, Memory.lookup, hd, ih]

theorem Memory.lookup_insert_other (m : List Host.Cell) {a b : Nat} (v : Byte) (h : b ≠ a) :
    Memory.lookup (Memory.insert m a v) b = Memory.lookup m b := by
  induction m with
  | nil => simp [Memory.insert, Memory.lookup, Ne.symm h]
  | cons c rest ih =>
    obtain ⟨d, w⟩ := c
    by_cases hd : a < d <;> simp [Memory.insert, Memory.lookup, hd, ih, Ne.symm h]

/-- Inserting where no entry stands makes the entry the one read. -/
theorem Memory.lookup_insert_erase (m : List Host.Cell) (a : Nat) (v : Byte) :
    Memory.lookup (Memory.insert (Memory.erase m a) a v) a = v := by
  induction m with
  | nil => simp [Memory.erase, Memory.insert, Memory.lookup]
  | cons c rest ih =>
    obtain ⟨d, w⟩ := c
    by_cases hd : d = a
    · simp [Memory.erase, hd, ih]
    · by_cases hlt : a < d <;> simp [Memory.erase, hd, Memory.insert, hlt, Memory.lookup, ih]

theorem Memory.lookup_store_same (m : List Host.Cell) (a : Nat) (v : Byte) :
    Memory.lookup (Memory.store m a v) a = v := by
  unfold Memory.store
  split
  · next h => rw [Memory.lookup_erase_same, h]
  · exact Memory.lookup_insert_erase m a v

theorem Memory.lookup_store_other (m : List Host.Cell) {a b : Nat} (v : Byte) (h : b ≠ a) :
    Memory.lookup (Memory.store m a v) b = Memory.lookup m b := by
  unfold Memory.store
  split
  · exact Memory.lookup_erase_other m h
  · rw [Memory.lookup_insert_other _ v h, Memory.lookup_erase_other m h]

/-! ### The canonical form -/

theorem Memory.wfFrom_mono {m : List Host.Cell} {lo hi : Nat} (h : lo ≤ hi) :
    Memory.wfFrom hi m = true → Memory.wfFrom lo m = true := by
  cases m with
  | nil => intro _; rfl
  | cons c rest =>
    obtain ⟨b, w⟩ := c
    simp only [Memory.wfFrom, Bool.and_eq_true, decide_eq_true_eq]
    rintro ⟨⟨⟨h1, h2⟩, h3⟩, h4⟩
    exact ⟨⟨⟨by omega, h2⟩, h3⟩, h4⟩

theorem Memory.erase_of_lt {m : List Host.Cell} {lo a : Nat} (h : a < lo) (hm : Memory.wfFrom lo m = true) :
    Memory.erase m a = m := by
  induction m generalizing lo with
  | nil => rfl
  | cons c rest ih =>
    obtain ⟨b, w⟩ := c
    simp only [Memory.wfFrom, Bool.and_eq_true, decide_eq_true_eq] at hm
    obtain ⟨⟨⟨h1, -⟩, -⟩, h4⟩ := hm
    have hb : b ≠ a := by omega
    simp [Memory.erase, hb, ih (by omega) h4]

theorem Memory.wfFrom_erase {m : List Host.Cell} {lo : Nat} (a : Nat) (hm : Memory.wfFrom lo m = true) :
    Memory.wfFrom lo (Memory.erase m a) = true := by
  induction m generalizing lo with
  | nil => rfl
  | cons c rest ih =>
    obtain ⟨b, w⟩ := c
    simp only [Memory.wfFrom, Bool.and_eq_true, decide_eq_true_eq] at hm
    obtain ⟨⟨⟨h1, h2⟩, h3⟩, h4⟩ := hm
    by_cases hb : b = a
    · simpa [Memory.erase, hb] using Memory.wfFrom_mono (by omega) (ih h4)
    · simp [Memory.erase, hb, Memory.wfFrom, h1, h2, h3, ih h4]

theorem Memory.wfFrom_insert_erase {m : List Host.Cell} {lo a : Nat} {v : Byte} (hlo : lo ≤ a)
    (ha : a < Config.memSize) (hv : v ≠ resetByte a) (hm : Memory.wfFrom lo m = true) :
    Memory.wfFrom lo (Memory.insert (Memory.erase m a) a v) = true := by
  induction m generalizing lo with
  | nil => simp [Memory.erase, Memory.insert, Memory.wfFrom, hlo, ha, hv]
  | cons c rest ih =>
    obtain ⟨b, w⟩ := c
    simp only [Memory.wfFrom, Bool.and_eq_true, decide_eq_true_eq] at hm
    obtain ⟨⟨⟨h1, h2⟩, h3⟩, h4⟩ := hm
    rcases Nat.lt_trichotomy b a with hb | hb | hb
    · have := ih (lo := b + 1) (by omega) h4
      simp [Memory.erase, Nat.ne_of_lt hb, Memory.insert, Nat.not_lt.mpr (Nat.le_of_lt hb), Memory.wfFrom, h1, h2, h3, this]
    · subst hb
      simpa [Memory.erase] using ih (lo := lo) hlo (Memory.wfFrom_mono (by omega) h4)
    · have he := Memory.erase_of_lt (Nat.lt_succ_of_lt hb) h4
      simp [Memory.erase, Nat.ne_of_gt hb, he, Memory.insert, hb, Memory.wfFrom, hlo, ha, hv, h2, h3, h4]

/-- A store inside the RAM keeps the canonical form. -/
theorem Memory.wf_store {m : List Host.Cell} {a : Nat} (v : Byte) (ha : a < Config.memSize)
    (hm : Memory.wf m = true) : Memory.wf (Memory.store m a v) = true := by
  unfold Memory.store
  split
  · exact Memory.wfFrom_erase a hm
  · next hv => exact Memory.wfFrom_insert_erase (Nat.zero_le a) ha hv hm

/-! ### Bytes of a state -/

theorem effective_lt (addr : Nat) : effective addr < Config.memSize := Nat.mod_lt addr (by decide)

/-- One law for a byte read after a byte written: the addresses name one cell or they do not. -/
theorem State.readByte_writeByte (s : State) (addr a : Nat) (b : Byte) :
    (s.writeByte addr b).readByte a = if a % 4096 = addr % 4096 then b else s.readByte a := by
  unfold State.readByte State.writeByte effective Config.memSize
  split
  · next h => rw [h]; exact Memory.lookup_store_same _ _ _
  · next h => exact Memory.lookup_store_other _ _ h

theorem State.readByte_add_mul (s : State) (a k : Nat) : s.readByte (a + 4096 * k) = s.readByte a := by
  unfold State.readByte effective Config.memSize; rw [Nat.add_mul_mod_self_left]

theorem State.readByte_mod (s : State) (a : Nat) : s.readByte (a % 4096) = s.readByte a := by
  unfold State.readByte effective Config.memSize; rw [Nat.mod_mod]

/-- A byte's reading depends on memory alone. -/
theorem State.readByte_congr {s t : State} (h : t.mem = s.mem) (a : Nat) : t.readByte a = s.readByte a := by
  unfold State.readByte; rw [h]

theorem State.wf_writeByte (s : State) (addr : Nat) (b : Byte) (h : Memory.wf s.mem = true) :
    Memory.wf (s.writeByte addr b).mem = true := Memory.wf_store b (effective_lt addr) h

theorem State.wf_writeBytes (s : State) (addr : Nat) (bs : List Byte) (h : Memory.wf s.mem = true) :
    Memory.wf (s.writeBytes addr bs).mem = true := by
  induction bs generalizing s addr with
  | nil => exact h
  | cons b rest ih => exact ih _ _ (State.wf_writeByte s addr b h)

/-- A byte outside the stored range keeps its value. -/
theorem State.readByte_writeBytes_outside (s : State) (addr a : Nat) (bs : List Byte)
    (h : ∀ j, j < bs.length → a % 4096 ≠ (addr + j) % 4096) :
    (s.writeBytes addr bs).readByte a = s.readByte a := by
  induction bs generalizing s addr with
  | nil => rfl
  | cons b rest ih =>
    have h0 : a % 4096 ≠ addr % 4096 := h 0 (by simp)
    rw [State.writeBytes, ih _ _ fun j hj => by
      have := h (j + 1) (by simpa using hj); rwa [Nat.add_assoc, Nat.add_comm 1 j]]
    rw [State.readByte_writeByte, if_neg h0]

/-- A byte inside the stored range is the one stored there, when the range does not wrap onto itself. -/
theorem State.readByte_writeBytes_inside (s : State) (addr j : Nat) (bs : List Byte)
    (hlen : bs.length ≤ 4096) (hj : j < bs.length) :
    (s.writeBytes addr bs).readByte (addr + j) = bs.getD j 0 := by
  induction bs generalizing s addr j with
  | nil => simp at hj
  | cons b rest ih =>
    simp only [List.length_cons] at hlen hj
    cases j with
    | zero =>
      rw [State.writeBytes, State.readByte_writeBytes_outside, State.readByte_writeByte]
      · simp
      · intro j hj; omega
    | succ j =>
      rw [State.writeBytes, show addr + (j + 1) = addr + 1 + j by omega, ih _ _ _ (by omega) (by omega)]
      simp

end Sys2Proof.Machine
end

