-- ==== Sys2Proof/Laws/Registers.lean ====
section
/-! SUPPORT. The laws of the register file, the key latch, the stack and the flag. -/

namespace Sys2Proof.Machine

theorem Nibble.toNat_ne {x y : Nibble} (h : x ≠ y) : x.toNat ≠ y.toNat := fun e => h (BitVec.eq_of_toNat_eq e)

/-- A register read after a register write. -/
theorem State.getV_setV (s : State) (x j : Nibble) (b : Byte) :
    (s.setV x b).getV j = if j = x then b else s.getV j := by
  unfold State.getV State.setV
  split
  · next h => subst h; simp
  · next h => simp [Ne.symm (Nibble.toNat_ne h)]

@[simp] theorem State.getV_setV_same (s : State) (x : Nibble) (b : Byte) : (s.setV x b).getV x = b := by
  rw [State.getV_setV, if_pos rfl]

/-- A register's reading depends on the register file alone. -/
theorem State.getV_congr {s t : State} (h : t.v = s.v) (j : Nibble) : t.getV j = s.getV j := by
  unfold State.getV; simp only [h]

theorem flagByte_toNat (f : Bool) : (flagByte f).toNat = if f then 1 else 0 := by cases f <;> rfl

/-- Registers after a result and its flag: the flag in `VF`, the result in `V[x]` unless `x = 15` (41_arithmetic R121). -/
theorem State.getV_setResult (s : State) (x j : Nibble) (r : Byte) (f : Bool) :
    (s.setResult x r f).getV j = if j = 15 then flagByte f else if j = x then r else s.getV j := by
  unfold State.setResult State.setFlag flagReg
  rw [State.getV_setV, State.getV_setV]

/-- Registers after a bulk load (44_memory_transfer R133). -/
theorem State.getV_loadLowRegs (s : State) (base : Nat) (x j : Nibble) :
    (s.loadLowRegs base x).getV j = if j.toNat ≤ x.toNat then s.readByte (base + j.toNat) else s.getV j := by
  unfold State.loadLowRegs State.getV; simp

/-- The latch after one key is set. -/
theorem State.keyHeld_setKey (s : State) (key j : Nibble) (down : Bool) :
    (s.setKey key down).keyHeld j = if j = key then down else s.keyHeld j := by
  unfold State.keyHeld State.setKey
  split
  · next h => subst h; simp
  · next h => simp [Ne.symm (Nibble.toNat_ne h)]

/-- `V0..Vx` as a list: its length and its entries. -/
theorem State.lowRegs_length (s : State) (x : Nibble) : (s.lowRegs x).length = x.toNat + 1 := by
  have := x.isLt
  unfold State.lowRegs; simp; omega

theorem State.lowRegs_getD (s : State) (x j : Nibble) (h : j.toNat ≤ x.toNat) :
    (s.lowRegs x).getD j.toNat 0 = s.getV j := by
  have hj := j.isLt
  unfold State.lowRegs State.getV
  rw [List.getD_eq_getElem?_getD, List.getElem?_take_of_lt (by omega)]
  simp [hj]

/-! ### The stack (10_state R28) -/

/-- Everything a push can do. -/
theorem State.push_cases (s : State) (a : Word) :
    (s.sp.val = 16 ∧ s.push a = none) ∨
    (s.sp.val < 16 ∧ ∃ t, s.push a = some t ∧ t = { s with stk := t.stk, sp := t.sp } ∧ t.sp.val = s.sp.val + 1 ∧
      ∀ j : Fin 16, t.stk[j] = if j.val = s.sp.val then a else s.stk[j]) := by
  have hlt := s.sp.isLt
  unfold State.push
  by_cases h : s.sp.val < 16
  · refine .inr ⟨h, ?_⟩
    rw [dif_pos h]
    refine ⟨_, rfl, rfl, rfl, fun j => ?_⟩
    simp only [Fin.getElem_fin, Vector.getElem_set]
    by_cases hj : j.val = s.sp.val
    · simp [hj]
    · simp [hj, Ne.symm hj]
  · exact .inl ⟨by omega, dif_neg h⟩

/-- Everything a pop can do. -/
theorem State.pop_cases (s : State) :
    (s.sp.val = 0 ∧ s.pop = none) ∨
    (0 < s.sp.val ∧ ∃ a t, s.pop = some (a, t) ∧ t = { s with sp := t.sp } ∧ t.sp.val = s.sp.val - 1 ∧
      ∀ j : Fin 16, j.val = s.sp.val - 1 → a = s.stk[j]) := by
  unfold State.pop
  by_cases h : 0 < s.sp.val
  · refine .inr ⟨h, ?_⟩
    rw [dif_pos h]
    refine ⟨_, _, rfl, rfl, rfl, fun j hj => ?_⟩
    simp [hj]
  · exact .inl ⟨by omega, dif_neg h⟩

end Sys2Proof.Machine
end

