-- ==== Sys2Proof/Laws/Framebuffer.lean ====
section
/-! SUPPORT. The laws of the framebuffer: one cell after a flip, every cell off after a clear. -/

namespace Sys2Proof.Machine

@[simp] theorem Framebuffer.cell_clear (y x : Nat) : Framebuffer.clear.cell y x = false := by
  simp [Framebuffer.clear, Framebuffer.cell]

/-- A flip toggles the one cell its coordinates name modulo 32 and 64. -/
theorem Framebuffer.cell_flipCell (fb : Framebuffer) (y x y' x' : Nat) :
    (fb.flipCell y x).cell y' x' =
      if y' % 32 = y % 32 ∧ x' % 64 = x % 64 then !fb.cell y' x' else fb.cell y' x' := by
  unfold Framebuffer.flipCell Framebuffer.cell
  rw [Vector.getElem_set]
  by_cases hy : y % 32 = y' % 32
  · by_cases hx : x % 64 = x' % 64
    · simp [hy, hx]
    · simp [hy, hx, Ne.symm hx]
  · simp [hy, Ne.symm hy]

/-- Two framebuffers that agree on every cell are one. -/
theorem Framebuffer.ext_cell {a b : Framebuffer} (h : ∀ y x, y < 32 → x < 64 → a.cell y x = b.cell y x) : a = b := by
  apply Vector.ext
  intro y hy
  apply Vector.ext
  intro x hx
  have := h y x hy hx
  simpa [Framebuffer.cell, Nat.mod_eq_of_lt hy, Nat.mod_eq_of_lt hx] using this

end Sys2Proof.Machine
end

