-- ==== Sys2Proof/Laws/Sprite.lean ====
section
/-! SUPPORT. What drawing does, in closed form: a cell is toggled exactly when a 1 pixel lands on it, and the collision is noted
exactly when such a cell was lit (45_display R138, R139). The pixels of a sprite land on distinct cells, so the order
of drawing does not show. -/

namespace Sys2Proof.Machine

/-- Toggling for one reason and then for another that excludes it is toggling for either. -/
theorem toggle_toggle_iff {A P Q : Prop} (h : P → ¬ Q) : (¬ (¬ (A ↔ P) ↔ Q)) ↔ ¬ (A ↔ (P ∨ Q)) := by
  by_cases hp : P
  · simp [hp, h hp]
  · by_cases hq : Q <;> simp [hp, hq]

/-- One pixel. -/
theorem drawPixel_cell (d : Drawing) (b : Byte) (y ox c y' x' : Nat) :
    ((drawPixel d b y ox c).1.cell y' x' = true ↔
      ¬ (d.1.cell y' x' = true ↔ (spriteBit b c = true ∧ y' % 32 = y % 32 ∧ x' % 64 = (ox + c) % 64))) := by
  unfold drawPixel
  by_cases hb : spriteBit b c = true
  · rw [if_pos hb]
    simp only [Framebuffer.cell_flipCell, hb, true_and]
    by_cases h : y' % 32 = y % 32 ∧ x' % 64 = (ox + c) % 64 <;> simp [h]
  · rw [if_neg hb]; simp [hb]

theorem drawPixel_collision (d : Drawing) (b : Byte) (y ox c : Nat) :
    (drawPixel d b y ox c).2 = true ↔
      d.2 = true ∨ (spriteBit b c = true ∧ d.1.cell y (ox + c) = true) := by
  unfold drawPixel
  by_cases hb : spriteBit b c = true <;> simp [hb]

/-- The pixels of one row, over any columns without repeats. -/
theorem foldl_drawPixel_cell (b : Byte) (y ox y' x' : Nat) (cs : List Nat) (hn : cs.Nodup) (hc : ∀ c ∈ cs, c < 8)
    (d : Drawing) :
    ((cs.foldl (fun d c => drawPixel d b y ox c) d).1.cell y' x' = true ↔
      ¬ (d.1.cell y' x' = true ↔
        ∃ c ∈ cs, spriteBit b c = true ∧ y' % 32 = y % 32 ∧ x' % 64 = (ox + c) % 64)) := by
  induction cs generalizing d with
  | nil => simp
  | cons c rest ih =>
    rw [List.nodup_cons] at hn
    have h0 := hc c (by simp)
    rw [List.foldl_cons, ih hn.2 (fun e he => hc e (by simp [he])), drawPixel_cell]
    have hdisj : (spriteBit b c = true ∧ y' % 32 = y % 32 ∧ x' % 64 = (ox + c) % 64) →
        ¬ ∃ e ∈ rest, spriteBit b e = true ∧ y' % 32 = y % 32 ∧ x' % 64 = (ox + e) % 64 := by
      rintro ⟨-, -, h⟩ ⟨e, he, -, -, h'⟩
      have h1 := hc e (by simp [he])
      have : e = c := by omega
      exact hn.1 (this ▸ he)
    rw [List.exists_mem_cons_iff]
    exact toggle_toggle_iff hdisj

theorem foldl_drawPixel_collision (b : Byte) (y ox : Nat) (cs : List Nat) (hn : cs.Nodup) (hc : ∀ c ∈ cs, c < 8)
    (d : Drawing) :
    ((cs.foldl (fun d c => drawPixel d b y ox c) d).2 = true ↔
      d.2 = true ∨ ∃ c ∈ cs, spriteBit b c = true ∧ d.1.cell y (ox + c) = true) := by
  induction cs generalizing d with
  | nil => simp
  | cons c rest ih =>
    rw [List.nodup_cons] at hn
    have h0 := hc c (by simp)
    have hkeep : ∀ e ∈ rest, ((drawPixel d b y ox c).1.cell y (ox + e) = true ↔ d.1.cell y (ox + e) = true) := by
      intro e he
      have h1 := hc e (by simp [he])
      have hne : e ≠ c := fun h => hn.1 (h ▸ he)
      have : ¬ (ox + e) % 64 = (ox + c) % 64 := by omega
      rw [drawPixel_cell]; simp [this]
    rw [List.foldl_cons, ih hn.2 (fun e he => hc e (by simp [he])), drawPixel_collision, List.exists_mem_cons_iff, or_assoc]
    constructor
    · rintro (h | h | ⟨e, he, h1, h2⟩)
      · exact .inl h
      · exact .inr (.inl h)
      · exact .inr (.inr ⟨e, he, h1, (hkeep e he).1 h2⟩)
    · rintro (h | h | ⟨e, he, h1, h2⟩)
      · exact .inl h
      · exact .inr (.inl h)
      · exact .inr (.inr ⟨e, he, h1, (hkeep e he).2 h2⟩)

theorem mem_columns (c : Nat) : c ∈ [0, 1, 2, 3, 4, 5, 6, 7] ↔ c < 8 := by
  simp only [List.mem_cons, List.not_mem_nil, or_false]; omega

/-- One row in closed form. -/
theorem drawRow_cell (d : Drawing) (b : Byte) (y ox y' x' : Nat) :
    ((drawRow d b y ox).1.cell y' x' = true ↔
      ¬ (d.1.cell y' x' = true ↔
        ∃ c < 8, spriteBit b c = true ∧ y' % 32 = y % 32 ∧ x' % 64 = (ox + c) % 64)) := by
  unfold drawRow
  rw [foldl_drawPixel_cell _ _ _ _ _ _ (by decide) (fun c h => (mem_columns c).1 h)]
  simp only [mem_columns]

theorem drawRow_collision (d : Drawing) (b : Byte) (y ox : Nat) :
    ((drawRow d b y ox).2 = true ↔
      d.2 = true ∨ ∃ c < 8, spriteBit b c = true ∧ d.1.cell y (ox + c) = true) := by
  unfold drawRow
  rw [foldl_drawPixel_collision _ _ _ _ (by decide) (fun c h => (mem_columns c).1 h)]
  simp only [mem_columns]

/-- Sprite rows in closed form: row `r` of the list lands on framebuffer row `y + r`. -/
theorem drawRows_cell (bs : List Byte) (hlen : bs.length ≤ 32) (d : Drawing) (ox y y' x' : Nat) :
    ((drawRows d ox y bs).1.cell y' x' = true ↔
      ¬ (d.1.cell y' x' = true ↔ ∃ r < bs.length, ∃ c < 8,
        spriteBit (bs.getD r 0) c = true ∧ y' % 32 = (y + r) % 32 ∧ x' % 64 = (ox + c) % 64)) := by
  induction bs generalizing d y with
  | nil => simp [drawRows]
  | cons b rest ih =>
    simp only [List.length_cons] at hlen
    rw [drawRows, ih (by omega), drawRow_cell]
    have hdisj : (∃ c < 8, spriteBit b c = true ∧ y' % 32 = y % 32 ∧ x' % 64 = (ox + c) % 64) →
        ¬ ∃ r < rest.length, ∃ c < 8, spriteBit (rest.getD r 0) c = true ∧
          y' % 32 = (y + 1 + r) % 32 ∧ x' % 64 = (ox + c) % 64 := by
      rintro ⟨c, hc, -, h1, -⟩ ⟨r, hr, e, -, -, h2, -⟩
      omega
    have hsplit : (∃ r < (b :: rest).length, ∃ c < 8, spriteBit ((b :: rest).getD r 0) c = true ∧
          y' % 32 = (y + r) % 32 ∧ x' % 64 = (ox + c) % 64) ↔
        (∃ c < 8, spriteBit b c = true ∧ y' % 32 = y % 32 ∧ x' % 64 = (ox + c) % 64) ∨
        ∃ r < rest.length, ∃ c < 8, spriteBit (rest.getD r 0) c = true ∧
          y' % 32 = (y + 1 + r) % 32 ∧ x' % 64 = (ox + c) % 64 := by
      constructor
      · rintro ⟨r, hr, c, hc, h1, h2, h3⟩
        cases r with
        | zero => exact .inl ⟨c, hc, by simpa using h1, by simpa using h2, h3⟩
        | succ r =>
          exact .inr ⟨r, by simpa using hr, c, hc, by simpa using h1,
            by rw [h2, Nat.add_assoc, Nat.add_comm 1 r], h3⟩
      · rintro (⟨c, hc, h1, h2, h3⟩ | ⟨r, hr, c, hc, h1, h2, h3⟩)
        · exact ⟨0, by simp, c, hc, by simpa using h1, by simpa using h2, h3⟩
        · exact ⟨r + 1, by simpa using hr, c, hc, by simpa using h1,
            by rw [h2, Nat.add_assoc, Nat.add_comm 1 r], h3⟩
    rw [hsplit]
    exact toggle_toggle_iff hdisj

theorem drawRows_collision (bs : List Byte) (hlen : bs.length ≤ 32) (d : Drawing) (ox y : Nat) :
    ((drawRows d ox y bs).2 = true ↔ d.2 = true ∨ ∃ r < bs.length, ∃ c < 8,
      spriteBit (bs.getD r 0) c = true ∧ d.1.cell (y + r) (ox + c) = true) := by
  induction bs generalizing d y with
  | nil => simp [drawRows]
  | cons b rest ih =>
    simp only [List.length_cons] at hlen
    rw [drawRows, ih (by omega), drawRow_collision, or_assoc]
    have hkeep : ∀ r < rest.length, ∀ c, ((drawRow d b y ox).1.cell (y + 1 + r) (ox + c) = true ↔
        d.1.cell (y + 1 + r) (ox + c) = true) := by
      intro r hr c
      have : ¬ (y + 1 + r) % 32 = y % 32 := by omega
      rw [drawRow_cell]; simp [this]
    apply or_congr_right
    constructor
    · rintro (⟨c, hc, h⟩ | ⟨r, hr, c, hc, h1, h2⟩)
      · exact ⟨0, by simp, c, hc, by simpa using h⟩
      · refine ⟨r + 1, by simpa using hr, c, hc, by simpa using h1, ?_⟩
        have := (hkeep r hr c).1 h2
        rwa [Nat.add_assoc, Nat.add_comm 1 r] at this
    · rintro ⟨r, hr, c, hc, h1, h2⟩
      cases r with
      | zero => exact .inl ⟨c, hc, by simpa using h1, by simpa using h2⟩
      | succ r =>
        refine .inr ⟨r, by simpa using hr, c, hc, by simpa using h1, (hkeep r (by simpa using hr) c).2 ?_⟩
        rwa [Nat.add_assoc, Nat.add_comm 1 r]

/-! ### The sprite's bytes -/

theorem State.readBytes_length (s : State) (addr n : Nat) : (s.readBytes addr n).length = n := by
  induction n generalizing addr with
  | zero => rfl
  | succ n ih => simp [State.readBytes, ih]

theorem State.readBytes_getD (s : State) (addr n r : Nat) (h : r < n) :
    (s.readBytes addr n).getD r 0 = s.readByte (addr + r) := by
  induction n generalizing addr r with
  | zero => omega
  | succ n ih =>
    cases r with
    | zero => simp [State.readBytes]
    | succ r =>
      have := ih (addr + 1) r (by omega)
      rw [State.readBytes, List.getD_cons_succ, this, Nat.add_assoc, Nat.add_comm 1 r]

end Sys2Proof.Machine
end

