-- ==== Sys2Proof/Laws/Cycle.lean ====
section
/-! SUPPORT. What the cycle driver's operations do, said once: when a step fetches, what it is otherwise, the end and the start of a
tick, a key event, and that a placed word is the next one fetched. -/

namespace Sys2Proof.Machine

theorem State.fetching_iff (s : State) :
    s.fetching = true ↔ s.phase = .batch ∧ s.run = .running ∧ s.slot < s.ipf := by
  unfold State.fetching; simp [and_assoc]

/-- Everything a step can be: an instruction step, the end of a tick, or an input between ticks. -/
theorem step_cases (s : State) :
    (s.fetching = true ∧ step s = instructionStep s) ∨
    (s.phase = .batch ∧ (s.run = .waitingForKey ∨ s.ipf ≤ s.slot) ∧ step s = .next s.endTick) ∨
    (s.phase = .gap ∧ step s = .next s.gapStep) := by
  unfold step cycle
  by_cases hf : s.fetching = true
  · exact .inl ⟨hf, if_pos hf⟩
  · rw [if_neg hf]
    cases hp : s.phase with
    | gap => exact .inr (.inr ⟨rfl, rfl⟩)
    | batch =>
      refine .inr (.inl ⟨rfl, ?_, rfl⟩)
      rw [State.fetching_iff] at hf
      cases hr : s.run with
      | waitingForKey => exact .inl rfl
      | running => exact .inr (Nat.le_of_not_lt fun h => hf ⟨hp, hr, h⟩)

/-- A fetching state's step runs the decoded word at the advanced `PC` and counts the slot. -/
theorem step_of_fetching {s : State} (h : s.fetching = true) :
    step s = countSlot (executeOp (decodeWord s.fetchWord) { s with pc := s.pc + 2 }) := by
  unfold step cycle; rw [if_pos h]; rfl

theorem step_of_gap {s : State} (h : s.phase = .gap) : step s = .next s.gapStep := by
  rcases step_cases s with ⟨hf, -⟩ | ⟨hp, -, -⟩ | ⟨-, hs⟩
  · rw [State.fetching_iff, h] at hf; cases hf.1
  · rw [h] at hp; cases hp
  · exact hs

theorem decrement_toNat (t : Byte) : (decrement t).toNat = t.toNat - 1 := by
  unfold decrement
  split
  · next h => have := t.isLt; rw [BitVec.toNat_sub]; simp; omega
  · omega

/-- The end of a tick, field by field. -/
theorem State.endTick_eq (s : State) : s.endTick =
    { s with dt := decrement s.dt, st := decrement s.st, output := some { frame := s.fb, st := decrement s.st },
             phase := .gap } := rfl

/-- Everything a key event can do (60_exceptions R176). -/
theorem State.keyEvent_cases (s : State) (key : Nibble) (down : Bool) :
    (s.run = .waitingForKey ∧ down = true ∧ s.keyHeld key = false ∧
      s.keyEvent key down = { (s.setKey key down).setV s.waitx (key.setWidth 8) with run := .running }) ∨
    (¬ (s.run = .waitingForKey ∧ down = true ∧ s.keyHeld key = false) ∧ s.keyEvent key down = s.setKey key down) := by
  unfold State.keyEvent
  by_cases h : s.run = .waitingForKey ∧ down = true ∧ s.keyHeld key = false
  · exact .inl ⟨h.1, h.2.1, h.2.2, by simp [h.1, h.2.1, h.2.2]⟩
  · refine .inr ⟨h, ?_⟩
    dsimp only
    rw [if_neg]
    rintro ⟨h1, h2⟩
    simp only [Bool.and_eq_true, Bool.not_eq_true'] at h2
    exact h ⟨h1, h2.1, h2.2⟩

theorem State.ipf_pos (s : State) : 0 < s.ipf := Nat.succ_pos _

/-! ### Placing a word -/

theorem bytesOfWord_append (w : Word) : (bytesOfWord w).1 ++ (bytesOfWord w).2 = w := by
  unfold bytesOfWord
  apply BitVec.eq_of_toNat_eq
  have := w.isLt
  rw [BitVec.toNat_append, ← Nat.shiftLeft_add_eq_or_of_lt (BitVec.isLt _)]
  simp only [BitVec.extractLsb'_toNat, Nat.shiftLeft_eq, Nat.shiftRight_eq_div_pow]
  omega

theorem State.toFetch_fetching (s : State) : s.toFetch.fetching = true := by
  unfold State.toFetch
  split
  · assumption
  · rw [State.fetching_iff]; exact ⟨rfl, rfl, Nat.succ_pos _⟩

/-- The word placed is the word the next step fetches, from any state. -/
theorem State.withFetchWord_fetches (s : State) (w : Nat) :
    (s.withFetchWord 16 w).fetching = true ∧ (s.withFetchWord 16 w).fetchWord = BitVec.ofNat 16 w := by
  refine ⟨s.toFetch_fetching, ?_⟩
  have hw : BitVec.ofNat 16 (w % 2 ^ 16) = BitVec.ofNat 16 w := by
    apply BitVec.eq_of_toNat_eq; simp
  unfold State.withFetchWord State.placeWord State.fetchWord
  rw [hw]
  simp only [State.writeByte_pc, State.readByte_writeByte]
  rw [if_neg (by omega), if_pos trivial, if_pos trivial]
  exact bytesOfWord_append _

end Sys2Proof.Machine
end

