-- ==== Sys2Proof/Laws/Fields.lean ====
section
/-! SUPPORT. Each field of a word written as its format's parts is the part that stands there (30_encoding R76, R77), every word is
its four nibbles, and a mask of whole nibbles keeps or drops each. -/

namespace Sys2Proof

/-- The upper part of an append. -/
theorem extract_append_high {m n k : Nat} (a : BitVec m) (b : BitVec n) (i : Nat) (h : n ≤ i) :
    (a ++ b).extractLsb' i k = a.extractLsb' (i - n) k := by
  ext j hj
  simp only [BitVec.getElem_extractLsb', BitVec.getLsbD_append]
  rw [if_neg (by omega)]
  congr 1; omega

/-- The lower part of an append. -/
theorem extract_append_low {m n k : Nat} (a : BitVec m) (b : BitVec n) (i : Nat) (h : i + k ≤ n) :
    (a ++ b).extractLsb' i k = b.extractLsb' i k := by
  ext j hj
  simp only [BitVec.getElem_extractLsb', BitVec.getLsbD_append]
  rw [if_pos (by omega)]

section
variable (op x y n : Nibble) (kk : Byte) (nnn : Addr12)

/-! ### Format NNN -/

@[simp] theorem fieldOp_nnn : fieldOp (op ++ nnn : Word) = op := by
  rw [fieldOp, extract_append_high _ _ _ (by omega)]; simp

@[simp] theorem fieldNNN_nnn : fieldNNN (op ++ nnn : Word) = nnn := by
  rw [fieldNNN, extract_append_low _ _ _ (by omega)]; simp

/-! ### Formats XKK and XSS -/

@[simp] theorem fieldOp_xkk : fieldOp (op ++ x ++ kk : Word) = op := by
  rw [fieldOp, extract_append_high _ _ _ (by omega), extract_append_high _ _ _ (by omega)]; simp

@[simp] theorem fieldX_xkk : fieldX (op ++ x ++ kk : Word) = x := by
  rw [fieldX, extract_append_high _ _ _ (by omega), extract_append_low _ _ _ (by omega)]; simp

@[simp] theorem fieldKK_xkk : fieldKK (op ++ x ++ kk : Word) = kk := by
  rw [fieldKK, extract_append_low _ _ _ (by omega)]; simp

/-! ### Formats XYS and XYN -/

@[simp] theorem fieldOp_xyn : fieldOp (op ++ x ++ y ++ n : Word) = op := by
  rw [fieldOp, extract_append_high _ _ _ (by omega), extract_append_high _ _ _ (by omega),
    extract_append_high _ _ _ (by omega)]; simp

@[simp] theorem fieldX_xyn : fieldX (op ++ x ++ y ++ n : Word) = x := by
  rw [fieldX, extract_append_high _ _ _ (by omega), extract_append_high _ _ _ (by omega),
    extract_append_low _ _ _ (by omega)]; simp

@[simp] theorem fieldY_xyn : fieldY (op ++ x ++ y ++ n : Word) = y := by
  rw [fieldY, extract_append_high _ _ _ (by omega), extract_append_low _ _ _ (by omega)]; simp

@[simp] theorem fieldN_xyn : fieldN (op ++ x ++ y ++ n : Word) = n := by
  rw [fieldN, extract_append_low _ _ _ (by omega)]; simp

end

/-! ### Words from their fields -/

/-- An append as a number: the upper part counts in units of the lower part's range. -/
theorem toNat_append_eq {m n : Nat} (a : BitVec m) (b : BitVec n) :
    (a ++ b).toNat = a.toNat * 2 ^ n + b.toNat := by
  rw [BitVec.toNat_append, ← Nat.shiftLeft_add_eq_or_of_lt b.isLt, Nat.shiftLeft_eq]

theorem fieldOp_toNat (w : Word) : (fieldOp w).toNat = w.toNat / 4096 := by
  have := w.isLt
  simp only [fieldOp, BitVec.extractLsb'_toNat, Nat.shiftRight_eq_div_pow]; omega

theorem fieldX_toNat (w : Word) : (fieldX w).toNat = w.toNat / 256 % 16 := by
  simp only [fieldX, BitVec.extractLsb'_toNat, Nat.shiftRight_eq_div_pow]

theorem fieldY_toNat (w : Word) : (fieldY w).toNat = w.toNat / 16 % 16 := by
  simp only [fieldY, BitVec.extractLsb'_toNat, Nat.shiftRight_eq_div_pow]

theorem fieldN_toNat (w : Word) : (fieldN w).toNat = w.toNat % 16 := by
  simp only [fieldN, BitVec.extractLsb'_toNat, Nat.shiftRight_eq_div_pow]; omega

theorem fieldKK_toNat (w : Word) : (fieldKK w).toNat = w.toNat % 256 := by
  simp only [fieldKK, BitVec.extractLsb'_toNat, Nat.shiftRight_eq_div_pow]; omega

theorem fieldNNN_toNat (w : Word) : (fieldNNN w).toNat = w.toNat % 4096 := by
  simp only [fieldNNN, BitVec.extractLsb'_toNat, Nat.shiftRight_eq_div_pow]; omega

theorem word_nnn (w : Word) : (fieldOp w ++ fieldNNN w : Word) = w := by
  apply BitVec.eq_of_toNat_eq
  rw [toNat_append_eq, fieldOp_toNat, fieldNNN_toNat]; omega

theorem word_xkk (w : Word) : (fieldOp w ++ fieldX w ++ fieldKK w : Word) = w := by
  apply BitVec.eq_of_toNat_eq
  rw [toNat_append_eq, toNat_append_eq, fieldOp_toNat, fieldX_toNat, fieldKK_toNat]; omega

theorem word_xyn (w : Word) : (fieldOp w ++ fieldX w ++ fieldY w ++ fieldN w : Word) = w := by
  apply BitVec.eq_of_toNat_eq
  rw [toNat_append_eq, toNat_append_eq, toNat_append_eq, fieldOp_toNat, fieldX_toNat, fieldY_toNat, fieldN_toNat]; omega

/-! ### Masks of whole nibbles (the mask column of R80) -/

/-- Appends are equal only part by part. -/
theorem append_inj {m n : Nat} {a c : BitVec m} {b d : BitVec n} (h : a ++ b = c ++ d) : a = c ∧ b = d := by
  have hn := congrArg BitVec.toNat h
  rw [toNat_append_eq, toNat_append_eq] at hn
  have hb := b.isLt
  have hd := d.isLt
  have h1 : a.toNat = c.toNat := by
    have hpos : 0 < 2 ^ n := Nat.two_pow_pos n
    have := congrArg (· / 2 ^ n) hn
    simpa only [Nat.mul_comm _ (2 ^ n), Nat.mul_add_div hpos, Nat.div_eq_of_lt hb, Nat.div_eq_of_lt hd,
      Nat.add_zero] using this
  rw [h1] at hn
  exact ⟨BitVec.eq_of_toNat_eq h1, BitVec.eq_of_toNat_eq (by omega)⟩

theorem and_F000 (w : Word) : w &&& 0xF000#16 = (fieldOp w ++ 0#12 : Word) := by
  have h := BitVec.and_append (x₁ := fieldOp w) (y₁ := fieldNNN w) (x₂ := 0xF#4) (y₂ := 0x000#12)
  rw [word_nnn] at h
  refine h.trans ?_
  rw [show (0xF#4 : Nibble) = BitVec.allOnes 4 from rfl, BitVec.and_allOnes, BitVec.and_zero]

theorem and_F0FF (w : Word) : w &&& 0xF0FF#16 = (fieldOp w ++ 0#4 ++ fieldKK w : Word) := by
  have h := BitVec.and_append (x₁ := (fieldOp w ++ fieldX w : BitVec 8)) (y₁ := fieldKK w)
    (x₂ := 0xF#4 ++ 0x0#4) (y₂ := 0xFF#8)
  rw [word_xkk, BitVec.and_append] at h
  refine h.trans ?_
  rw [show (0xF#4 : Nibble) = BitVec.allOnes 4 from rfl, show (0xFF#8 : Byte) = BitVec.allOnes 8 from rfl,
    BitVec.and_allOnes, BitVec.and_allOnes, BitVec.and_zero]

theorem and_F00F (w : Word) : w &&& 0xF00F#16 = (fieldOp w ++ 0#4 ++ 0#4 ++ fieldN w : Word) := by
  have h := BitVec.and_append (x₁ := (fieldOp w ++ fieldX w ++ fieldY w : BitVec 12)) (y₁ := fieldN w)
    (x₂ := 0xF#4 ++ 0x0#4 ++ 0x0#4) (y₂ := 0xF#4)
  rw [word_xyn, BitVec.and_append, BitVec.and_append] at h
  refine h.trans ?_
  rw [show (0xF#4 : Nibble) = BitVec.allOnes 4 from rfl, BitVec.and_allOnes, BitVec.and_allOnes, BitVec.and_zero,
    BitVec.and_zero]

/-- A row of mask 0xF000 is its leading nibble. -/
theorem and_F000_iff (w : Word) (op : Nibble) : w &&& 0xF000#16 = (op ++ 0#12 : Word) ↔ fieldOp w = op := by
  rw [and_F000]
  exact ⟨fun h => (append_inj h).1, fun h => by rw [h]⟩

/-- A row of mask 0xF0FF is its leading nibble and its trailing byte. -/
theorem and_F0FF_iff (w : Word) (op : Nibble) (kk : Byte) :
    w &&& 0xF0FF#16 = (op ++ 0#4 ++ kk : Word) ↔ fieldOp w = op ∧ fieldKK w = kk := by
  rw [and_F0FF]
  exact ⟨fun h => ⟨(append_inj (append_inj h).1).1, (append_inj h).2⟩, fun h => by rw [h.1, h.2]⟩

/-- A row of mask 0xF00F is its leading and its trailing nibble. -/
theorem and_F00F_iff (w : Word) (op n : Nibble) :
    w &&& 0xF00F#16 = (op ++ 0#4 ++ 0#4 ++ n : Word) ↔ fieldOp w = op ∧ fieldN w = n := by
  rw [and_F00F]
  exact ⟨fun h => ⟨(append_inj (append_inj (append_inj h).1).1).1, (append_inj h).2⟩, fun h => by rw [h.1, h.2]⟩

end Sys2Proof
end

