-- ==== Sys2Proof/Laws/Decoder.lean ====
section
/-! SUPPORT. The decoder family by family: a nibble is one of sixteen, and what the decoder answers for each leading nibble
(30_encoding R79, R80). -/

namespace Sys2Proof

/-- A nibble is one of sixteen. -/
theorem nibble_cases (q : Nibble) :
    q = 0x0#4 ∨ q = 0x1#4 ∨ q = 0x2#4 ∨ q = 0x3#4 ∨ q = 0x4#4 ∨ q = 0x5#4 ∨ q = 0x6#4 ∨ q = 0x7#4 ∨
    q = 0x8#4 ∨ q = 0x9#4 ∨ q = 0xA#4 ∨ q = 0xB#4 ∨ q = 0xC#4 ∨ q = 0xD#4 ∨ q = 0xE#4 ∨ q = 0xF#4 := by
  revert q; decide

section
variable {b : Bool} {w : Word}

theorem decodeWordWith_op0 (h : fieldOp w = 0x0#4) :
    decodeWordWith b w = (decodeFamily0 w : Operation) := by
  simp [decodeWordWith, h]

theorem decodeWordWith_op1 (h : fieldOp w = 0x1#4) :
    decodeWordWith b w = (.instr (.jp (fieldNNN w)) : Operation) := by
  simp [decodeWordWith, h]

theorem decodeWordWith_op2 (h : fieldOp w = 0x2#4) :
    decodeWordWith b w = (.instr (.call (fieldNNN w)) : Operation) := by
  simp [decodeWordWith, h]

theorem decodeWordWith_op3 (h : fieldOp w = 0x3#4) :
    decodeWordWith b w = (.instr (.seImm (fieldX w) (fieldKK w)) : Operation) := by
  simp [decodeWordWith, h]

theorem decodeWordWith_op4 (h : fieldOp w = 0x4#4) :
    decodeWordWith b w = (.instr (.sneImm (fieldX w) (fieldKK w)) : Operation) := by
  simp [decodeWordWith, h]

theorem decodeWordWith_op5 (h : fieldOp w = 0x5#4) :
    decodeWordWith b w = (if fieldN w = 0x0#4 then .instr (.seReg (fieldX w) (fieldY w)) else .unknown w : Operation) := by
  simp [decodeWordWith, h]

theorem decodeWordWith_op6 (h : fieldOp w = 0x6#4) :
    decodeWordWith b w = (.instr (.ldImm (fieldX w) (fieldKK w)) : Operation) := by
  simp [decodeWordWith, h]

theorem decodeWordWith_op7 (h : fieldOp w = 0x7#4) :
    decodeWordWith b w = (.instr (.addImm (fieldX w) (fieldKK w)) : Operation) := by
  simp [decodeWordWith, h]

theorem decodeWordWith_op8 (h : fieldOp w = 0x8#4) :
    decodeWordWith b w = (decodeFamily8 w : Operation) := by
  simp [decodeWordWith, h]

theorem decodeWordWith_op9 (h : fieldOp w = 0x9#4) :
    decodeWordWith b w = (if fieldN w = 0x0#4 then .instr (.sneReg (fieldX w) (fieldY w)) else .unknown w : Operation) := by
  simp [decodeWordWith, h]

theorem decodeWordWith_opA (h : fieldOp w = 0xA#4) :
    decodeWordWith b w = (.instr (.ldI (fieldNNN w)) : Operation) := by
  simp [decodeWordWith, h]

theorem decodeWordWith_opB (h : fieldOp w = 0xB#4) :
    decodeWordWith b w = (if b then .instr (.jpV0 (fieldNNN w)) else .unknown w : Operation) := by
  simp [decodeWordWith, h]

theorem decodeWordWith_opC (h : fieldOp w = 0xC#4) :
    decodeWordWith b w = (.instr (.rnd (fieldX w) (fieldKK w)) : Operation) := by
  simp [decodeWordWith, h]

theorem decodeWordWith_opD (h : fieldOp w = 0xD#4) :
    decodeWordWith b w = (.instr (.drw (fieldX w) (fieldY w) (fieldN w)) : Operation) := by
  simp [decodeWordWith, h]

theorem decodeWordWith_opE (h : fieldOp w = 0xE#4) :
    decodeWordWith b w = (decodeFamilyE w : Operation) := by
  simp [decodeWordWith, h]

theorem decodeWordWith_opF (h : fieldOp w = 0xF#4) :
    decodeWordWith b w = (decodeFamilyF w : Operation) := by
  simp [decodeWordWith, h]

end

end Sys2Proof
end

