-- ==== Sys2Proof/Laws/PerInstr.lean ====
section
/-! SUPPORT. Family OpcodeRow: every instruction, at every operand, is spelt by a word that its row of the opcode map
matches (30_encoding R80). One lemma per constructor. -/

namespace Sys2Proof.Laws.OpcodeRow

/-- The word that spells the instruction is in the instruction's row of R80. -/
def Statement (i : Instr) : Prop := encode i &&& (opcodeRow i).1 = (opcodeRow i).2

theorem cls : Statement .cls := by unfold Statement; decide
theorem ret : Statement .ret := by unfold Statement; decide
theorem jp (nnn : Addr12) : Statement (.jp nnn) := (and_F000_iff _ 0x1#4).2 (fieldOp_nnn _ _)
theorem call (nnn : Addr12) : Statement (.call nnn) := (and_F000_iff _ 0x2#4).2 (fieldOp_nnn _ _)
theorem seImm (x : Nibble) (kk : Byte) : Statement (.seImm x kk) := (and_F000_iff _ 0x3#4).2 (fieldOp_xkk _ _ _)
theorem sneImm (x : Nibble) (kk : Byte) : Statement (.sneImm x kk) := (and_F000_iff _ 0x4#4).2 (fieldOp_xkk _ _ _)
theorem ldImm (x : Nibble) (kk : Byte) : Statement (.ldImm x kk) := (and_F000_iff _ 0x6#4).2 (fieldOp_xkk _ _ _)
theorem addImm (x : Nibble) (kk : Byte) : Statement (.addImm x kk) := (and_F000_iff _ 0x7#4).2 (fieldOp_xkk _ _ _)
theorem rnd (x : Nibble) (kk : Byte) : Statement (.rnd x kk) := (and_F000_iff _ 0xC#4).2 (fieldOp_xkk _ _ _)
theorem ldI (nnn : Addr12) : Statement (.ldI nnn) := (and_F000_iff _ 0xA#4).2 (fieldOp_nnn _ _)
theorem jpV0 (nnn : Addr12) : Statement (.jpV0 nnn) := (and_F000_iff _ 0xB#4).2 (fieldOp_nnn _ _)
theorem drw (x y n : Nibble) : Statement (.drw x y n) := (and_F000_iff _ 0xD#4).2 (fieldOp_xyn _ _ _ _)

theorem seReg (x y : Nibble) : Statement (.seReg x y) :=
  (and_F00F_iff _ 0x5#4 0x0#4).2 ⟨fieldOp_xyn _ _ _ _, fieldN_xyn _ _ _ _⟩
theorem ldReg (x y : Nibble) : Statement (.ldReg x y) :=
  (and_F00F_iff _ 0x8#4 0x0#4).2 ⟨fieldOp_xyn _ _ _ _, fieldN_xyn _ _ _ _⟩
theorem orReg (x y : Nibble) : Statement (.orReg x y) :=
  (and_F00F_iff _ 0x8#4 0x1#4).2 ⟨fieldOp_xyn _ _ _ _, fieldN_xyn _ _ _ _⟩
theorem andReg (x y : Nibble) : Statement (.andReg x y) :=
  (and_F00F_iff _ 0x8#4 0x2#4).2 ⟨fieldOp_xyn _ _ _ _, fieldN_xyn _ _ _ _⟩
theorem xorReg (x y : Nibble) : Statement (.xorReg x y) :=
  (and_F00F_iff _ 0x8#4 0x3#4).2 ⟨fieldOp_xyn _ _ _ _, fieldN_xyn _ _ _ _⟩
theorem addReg (x y : Nibble) : Statement (.addReg x y) :=
  (and_F00F_iff _ 0x8#4 0x4#4).2 ⟨fieldOp_xyn _ _ _ _, fieldN_xyn _ _ _ _⟩
theorem subReg (x y : Nibble) : Statement (.subReg x y) :=
  (and_F00F_iff _ 0x8#4 0x5#4).2 ⟨fieldOp_xyn _ _ _ _, fieldN_xyn _ _ _ _⟩
theorem shr (x y : Nibble) : Statement (.shr x y) :=
  (and_F00F_iff _ 0x8#4 0x6#4).2 ⟨fieldOp_xyn _ _ _ _, fieldN_xyn _ _ _ _⟩
theorem subnReg (x y : Nibble) : Statement (.subnReg x y) :=
  (and_F00F_iff _ 0x8#4 0x7#4).2 ⟨fieldOp_xyn _ _ _ _, fieldN_xyn _ _ _ _⟩
theorem shl (x y : Nibble) : Statement (.shl x y) :=
  (and_F00F_iff _ 0x8#4 0xE#4).2 ⟨fieldOp_xyn _ _ _ _, fieldN_xyn _ _ _ _⟩
theorem sneReg (x y : Nibble) : Statement (.sneReg x y) :=
  (and_F00F_iff _ 0x9#4 0x0#4).2 ⟨fieldOp_xyn _ _ _ _, fieldN_xyn _ _ _ _⟩

theorem skp (x : Nibble) : Statement (.skp x) :=
  (and_F0FF_iff _ 0xE#4 0x9E#8).2 ⟨fieldOp_xkk _ _ _, fieldKK_xkk _ _ _⟩
theorem sknp (x : Nibble) : Statement (.sknp x) :=
  (and_F0FF_iff _ 0xE#4 0xA1#8).2 ⟨fieldOp_xkk _ _ _, fieldKK_xkk _ _ _⟩
theorem ldVxDt (x : Nibble) : Statement (.ldVxDt x) :=
  (and_F0FF_iff _ 0xF#4 0x07#8).2 ⟨fieldOp_xkk _ _ _, fieldKK_xkk _ _ _⟩
theorem ldVxK (x : Nibble) : Statement (.ldVxK x) :=
  (and_F0FF_iff _ 0xF#4 0x0A#8).2 ⟨fieldOp_xkk _ _ _, fieldKK_xkk _ _ _⟩
theorem ldDtVx (x : Nibble) : Statement (.ldDtVx x) :=
  (and_F0FF_iff _ 0xF#4 0x15#8).2 ⟨fieldOp_xkk _ _ _, fieldKK_xkk _ _ _⟩
theorem ldStVx (x : Nibble) : Statement (.ldStVx x) :=
  (and_F0FF_iff _ 0xF#4 0x18#8).2 ⟨fieldOp_xkk _ _ _, fieldKK_xkk _ _ _⟩
theorem addIVx (x : Nibble) : Statement (.addIVx x) :=
  (and_F0FF_iff _ 0xF#4 0x1E#8).2 ⟨fieldOp_xkk _ _ _, fieldKK_xkk _ _ _⟩
theorem ldFVx (x : Nibble) : Statement (.ldFVx x) :=
  (and_F0FF_iff _ 0xF#4 0x29#8).2 ⟨fieldOp_xkk _ _ _, fieldKK_xkk _ _ _⟩
theorem ldBVx (x : Nibble) : Statement (.ldBVx x) :=
  (and_F0FF_iff _ 0xF#4 0x33#8).2 ⟨fieldOp_xkk _ _ _, fieldKK_xkk _ _ _⟩
theorem storeRegs (x : Nibble) : Statement (.storeRegs x) :=
  (and_F0FF_iff _ 0xF#4 0x55#8).2 ⟨fieldOp_xkk _ _ _, fieldKK_xkk _ _ _⟩
theorem loadRegs (x : Nibble) : Statement (.loadRegs x) :=
  (and_F0FF_iff _ 0xF#4 0x65#8).2 ⟨fieldOp_xkk _ _ _, fieldKK_xkk _ _ _⟩

end Sys2Proof.Laws.OpcodeRow
end

