-- ==== Sys2Proof/Tests/Slice0.lean ====
section
/-! SUPPORT. The model's own tests. Expected results come from spec/95_test_vectors.md (the section is named at each test) or from
the rule cited; words are written out bit by bit from 30_encoding R76, R77, R80. The last part gives, for every statement with
hypotheses, a state and operands that meet them. -/

namespace Sys2Proof.Tests

open Sys2Proof.Machine Sys2Proof.Claims

/-- Inside a batch of at most four instructions, everything else at reset. -/
def busy : State := { State.reset with phase := .batch, loadable := false, ipfMinusOne := 3 }

/-- `busy` with some registers set. -/
def regs (l : List (Nibble × Byte)) : State := l.foldl (fun s p => s.setV p.1 p.2) busy

/-- The state after one step that fetches the word `w`. -/
def after (w : Nat) (s : State) : Option State :=
  match step (s.withFetchWord 16 w) with
  | .next t => some t
  | .fault _ => none
  | .refused _ => none

/-- The state after one step. -/
def next (s : State) : Option State :=
  match step s with
  | .next t => some t
  | .fault _ => none
  | .refused _ => none

/-! ### WellFormed -/

/-- The one check refuses: the indexed jump on a machine without it (R80, D6). -/
theorem test_indexed_jump_ill_formed_when_disabled : wellFormedWith false (.jpV0 0x123) = false := by decide

theorem test_indexed_jump_well_formed_here : wellFormed (.jpV0 0x123) = true := by decide

/-! ### Decode: one word for every constructor, bit by bit -/

theorem test_decode_family0 :
    decodeWord 0b0000000011100000#16 = .instr .cls ∧ decodeWord 0b0000000011101110#16 = .instr .ret ∧
    decodeWord 0b0000000011100001#16 = .unknown 0x00E1#16 ∧ decodeWord 0x0123#16 = .unknown 0x0123#16 := by decide

theorem test_decode_control :
    decodeWord 0b0001101010111100#16 = .instr (.jp 0xABC) ∧ decodeWord 0b0010001100000000#16 = .instr (.call 0x300) ∧
    decodeWord 0b0011001101000010#16 = .instr (.seImm 3 0x42) ∧ decodeWord 0b0100001101000010#16 = .instr (.sneImm 3 0x42) ∧
    decodeWord 0b0101000100100000#16 = .instr (.seReg 1 2) ∧ decodeWord 0b1001000100100000#16 = .instr (.sneReg 1 2) ∧
    decodeWord 0b1011000100100011#16 = .instr (.jpV0 0x123) := by decide

theorem test_decode_arithmetic :
    decodeWord 0b0110101000000101#16 = .instr (.ldImm 0xA 5) ∧ decodeWord 0b0111101000000011#16 = .instr (.addImm 0xA 3) ∧
    decodeWord 0b1000000100100000#16 = .instr (.ldReg 1 2) ∧ decodeWord 0b1000000100100001#16 = .instr (.orReg 1 2) ∧
    decodeWord 0b1000000100100010#16 = .instr (.andReg 1 2) ∧ decodeWord 0b1000000100100011#16 = .instr (.xorReg 1 2) ∧
    decodeWord 0b1000000100100100#16 = .instr (.addReg 1 2) ∧ decodeWord 0b1000000100100101#16 = .instr (.subReg 1 2) ∧
    decodeWord 0b1000000100100110#16 = .instr (.shr 1 2) ∧ decodeWord 0b1000000100100111#16 = .instr (.subnReg 1 2) ∧
    decodeWord 0b1000000100101110#16 = .instr (.shl 1 2) := by decide

theorem test_decode_index_random_display :
    decodeWord 0b1010001011110000#16 = .instr (.ldI 0x2F0) ∧ decodeWord 0b1100001011110000#16 = .instr (.rnd 2 0xF0) ∧
    decodeWord 0b1101000100100011#16 = .instr (.drw 1 2 3) := by decide

theorem test_decode_input :
    decodeWord 0b1110000110011110#16 = .instr (.skp 1) ∧ decodeWord 0b1110000110100001#16 = .instr (.sknp 1) ∧
    decodeWord 0xE19F#16 = .unknown 0xE19F#16 := by decide

theorem test_decode_familyF :
    decodeWord 0b1111000100000111#16 = .instr (.ldVxDt 1) ∧ decodeWord 0b1111000100001010#16 = .instr (.ldVxK 1) ∧
    decodeWord 0b1111000100010101#16 = .instr (.ldDtVx 1) ∧ decodeWord 0b1111000100011000#16 = .instr (.ldStVx 1) ∧
    decodeWord 0b1111000100011110#16 = .instr (.addIVx 1) ∧ decodeWord 0b1111000100101001#16 = .instr (.ldFVx 1) ∧
    decodeWord 0b1111000100110011#16 = .instr (.ldBVx 1) ∧ decodeWord 0b1111000101010101#16 = .instr (.storeRegs 1) ∧
    decodeWord 0b1111000101100101#16 = .instr (.loadRegs 1) := by decide

/-- 95 section 2.1: the Unknown words listed there. -/
theorem test_unknown_words :
    [0x0000#16, 0x00FE#16, 0x5121#16, 0x8128#16, 0x812D#16, 0x812F#16, 0x9125#16, 0xF100#16, 0xF175#16, 0xFFFF#16].all
      (fun w => decodeWord w = .unknown w) = true := by decide

/-- R82: with BNNN_ENABLED false the word is Unknown. -/
theorem test_indexed_jump_unknown_when_disabled : decodeWordWith false 0xB123#16 = .unknown 0xB123#16 := by decide

theorem test_table_word : decodeTableWord 16 0x8124 = some (.addReg 1 2) ∧ decodeTableWord 16 0x0000 = none := by decide

theorem test_decode_bytes_big_endian : decode [0x6A, 0x05, 0x7A] = .ok (.ldImm 0xA 5, [0x7A]) := by rfl

theorem test_decode_truncated : decode [0x6A] = .error .truncated := by rfl

/-! ### The first instruction after reset -/

theorem test_first_instruction_after_reset :
    (after 0x6A05 State.reset).map (fun t => (t.getV 0xA, t.pc, t.slot)) = some (5, 0x202, 1) := by decide

/-! ### Control flow: 95 section 2.2 -/

theorem test_jp : (after 0x1ABC busy).map (·.pc) = some 0x0ABC := by decide

theorem test_call :
    (after 0x2300 busy).map (fun t => (t.stk[0], t.sp, t.pc)) = some (0x0202, 1, 0x0300) := by decide

theorem test_call_full : (after 0x2300 { busy with sp := 16 }).map (fun t => (t.sp, t.pc, t.err, decide (t.stk = busy.stk))) =
    some (16, 0x0202, [.stackOverflow], true) := by decide

theorem test_ret : (after 0x00EE { busy with sp := 1, stk := busy.stk.set 0 0x0456 }).map (fun t => (t.sp, t.pc, t.stk[0])) =
    some (0, 0x0456, 0x0456) := by decide

theorem test_ret_empty : (after 0x00EE busy).map (fun t => (t.sp, t.pc, t.err)) = some (0, 0x0202, [.stackUnderflow]) := by decide

theorem test_se_imm : (after 0x3342 (regs [(3, 0x42)])).map (·.pc) = some 0x0204 ∧
    (after 0x3342 (regs [(3, 0x41)])).map (·.pc) = some 0x0202 := by decide

/-- The last row of section 2.2: at 0xFFFE the skip wraps to 0x0002. -/
theorem test_se_imm_wraps : (after 0x3F01 { regs [(0xF, 1)] with pc := 0xFFFE }).map (·.pc) = some 0x0002 := by decide

theorem test_sne_imm : (after 0x4342 (regs [(3, 0x42)])).map (·.pc) = some 0x0202 ∧
    (after 0x4342 (regs [(3, 0x41)])).map (·.pc) = some 0x0204 := by decide

theorem test_se_reg : (after 0x5120 (regs [(1, 7), (2, 7)])).map (·.pc) = some 0x0204 ∧
    (after 0x5120 (regs [(1, 7), (2, 8)])).map (·.pc) = some 0x0202 := by decide

theorem test_sne_reg : (after 0x9120 (regs [(1, 7), (2, 8)])).map (·.pc) = some 0x0204 ∧
    (after 0x9110 (regs [(1, 7)])).map (·.pc) = some 0x0202 := by decide

theorem test_jp_v0_past_memory : (after 0xBFFF (regs [(0, 0xFF)])).map (·.pc) = some 0x10FE := by decide

/-! ### Arithmetic: 95 section 2.3 -/

theorem test_ld_imm : (after 0x6FFF busy).map (·.getV 0xF) = some 0xFF := by decide

theorem test_add_imm_no_flag : (after 0x7A01 (regs [(0xA, 0xFF)])).map (fun t => (t.getV 0xA, t.getV 0xF)) = some (0, 0) := by decide

theorem test_ld_reg : (after 0x8120 (regs [(1, 0x11), (2, 0x9C)])).map (·.getV 1) = some 0x9C := by decide

theorem test_or : (after 0x8121 (regs [(1, 0xF0), (2, 0x3C), (0xF, 1)])).map (fun t => (t.getV 1, t.getV 0xF)) =
    some (0xFC, 1) := by decide

theorem test_and : (after 0x8122 (regs [(1, 0xF0), (2, 0x3C), (0xF, 1)])).map (fun t => (t.getV 1, t.getV 0xF)) =
    some (0x30, 1) := by decide

theorem test_xor : (after 0x8123 (regs [(1, 0xF0), (2, 0x3C), (0xF, 1)])).map (fun t => (t.getV 1, t.getV 0xF)) =
    some (0xCC, 1) := by decide

theorem test_add_carry : (after 0x8124 (regs [(1, 0xC8), (2, 0x64)])).map (fun t => (t.getV 1, t.getV 0xF)) =
    some (0x2C, 1) := by decide

theorem test_add_into_vf : (after 0x8F14 (regs [(1, 0x20), (0xF, 0x10)])).map (·.getV 0xF) = some 0 ∧
    (after 0x81F4 (regs [(1, 0xFF), (0xF, 1)])).map (fun t => (t.getV 1, t.getV 0xF)) = some (0, 1) := by decide

theorem test_sub : (after 0x8125 (regs [(1, 3), (2, 5)])).map (fun t => (t.getV 1, t.getV 0xF)) = some (0xFE, 0) ∧
    (after 0x8125 (regs [(1, 7), (2, 7)])).map (fun t => (t.getV 1, t.getV 0xF)) = some (0, 1) := by decide

theorem test_subn : (after 0x8127 (regs [(1, 0x0A), (2, 3)])).map (fun t => (t.getV 1, t.getV 0xF)) = some (0xF9, 0) ∧
    (after 0x8F17 (regs [(1, 9), (0xF, 4)])).map (·.getV 0xF) = some 1 := by decide

theorem test_shr : (after 0x8126 (regs [(1, 5), (2, 0xF0)])).map (fun t => (t.getV 1, t.getV 0xF)) = some (2, 1) := by decide

theorem test_shr_vy : ((regs [(1, 5), (2, 0xF0)]).shiftRight .vy 1 2).getV 1 = 0x78 ∧
    ((regs [(1, 5), (2, 0xF0)]).shiftRight .vy 1 2).getV 0xF = 0 := by decide

theorem test_shl : (after 0x812E (regs [(1, 0x81), (2, 0x40)])).map (fun t => (t.getV 1, t.getV 0xF)) = some (2, 1) := by decide

theorem test_shl_vy : ((regs [(1, 0x81), (2, 0x40)]).shiftLeft .vy 1 2).getV 1 = 0x80 ∧
    ((regs [(1, 0x81), (2, 0x40)]).shiftLeft .vy 1 2).getV 0xF = 0 := by decide

/-! ### Index and random: 95 sections 2.4, 2.5 -/

theorem test_ld_i : (after 0xA2F0 busy).map (·.i) = some 0x02F0 := by decide

theorem test_add_i : (after 0xF21E { regs [(2, 1)] with i := 0x0FFF }).map (fun t => (t.i, t.getV 0xF)) = some (0x1000, 0) ∧
    (after 0xF21E { regs [(2, 2)] with i := 0xFFFF }).map (·.i) = some 0x0001 := by decide

theorem test_ld_f : (after 0xF029 (regs [(0, 0x1A)])).map (·.i) = some 0x0032 ∧
    (after 0xF029 (regs [(0, 0xFF)])).map (·.i) = some 0x004B := by decide

/-- The free byte itself is not known; the draw is counted, and `PC` advances. -/
theorem test_rnd : (after 0xC30F busy).map (fun t => (t.drawCount, t.pc)) = some (1, 0x202) := by decide

/-! ### Memory transfer: 95 section 2.6 -/

theorem test_store_wraps_into_font :
    (after 0xF155 { regs [(0, 0xAA), (1, 0xBB)] with i := 0x0FFF }).map
      (fun t => (t.readByte 0xFFF, t.readByte 0x000, t.readByte 0x001, t.i)) = some (0xAA, 0xBB, 0x90, 0x1001) := by decide

theorem test_store_stops_at_vx :
    (after 0xF255 { regs [(0, 0x11), (1, 0x22), (2, 0x33), (3, 0x44)] with i := 0x300 }).map
      (fun t => (t.readByte 0x300, t.readByte 0x302, t.readByte 0x303, t.i)) = some (0x11, 0x33, 0, 0x303) := by decide

theorem test_load : (after 0xF265 { (regs [(3, 0xEE)]).writeBytes 0x300 [1, 5, 7, 9] with i := 0x300 }).map
    (fun t => (t.getV 0, t.getV 1, t.getV 2, t.getV 3, t.i)) = some (1, 5, 7, 0xEE, 0x303) := by decide

theorem test_load_font : (after 0xF165 busy).map (fun t => (t.getV 0, t.getV 1, t.i)) = some (0xF0, 0x90, 2) := by decide

theorem test_bcd : (after 0xF033 { regs [(0, 157)] with i := 0x300 }).map
    (fun t => (t.readByte 0x300, t.readByte 0x301, t.readByte 0x302, t.i)) = some (1, 5, 7, 0x300) := by decide

theorem test_bcd_wraps : (after 0xF033 { regs [(0, 123)] with i := 0xFFF }).map
    (fun t => (t.readByte 0xFFF, t.readByte 0, t.readByte 1)) = some (1, 2, 3) := by decide

/-! ### Display: 95 section 2.7 -/

/-- A sprite's bytes at 0x300, `I` there, and an origin in V0, V1. -/
def drawing (bytes : List Byte) (x y : Byte) : State :=
  { (regs [(0, x), (1, y)]).writeBytes 0x300 bytes with i := 0x300 }

theorem test_cls : (after 0x00E0 { busy with fb := busy.fb.flipCell 3 4 }).map (fun t => (t.fb.cell 3 4, t.getV 0xF)) =
    some (false, 0) := by decide

theorem test_drw_wraps_both_axes : (after 0xD011 (drawing [0xC0] 63 31)).map
    (fun t => (t.fb.cell 31 63, t.fb.cell 31 0, t.fb.cell 31 1, t.fb.cell 0 0, t.getV 0xF)) =
    some (true, true, false, false, 0) := by decide

theorem test_drw_collision_survives_rows :
    (after 0xD012 { drawing [0x80, 0x00] 0 0 with fb := busy.fb.flipCell 0 0 }).map
      (fun t => (t.fb.cell 0 0, t.getV 0xF, t.i)) = some (false, 1, 0x300) := by decide

/-! ### Input and timers: 95 sections 2.8, 2.9 -/

theorem test_skp : (after 0xE49E ((regs [(4, 0x17)]).setKey 7 true)).map (·.pc) = some 0x0204 ∧
    (after 0xE49E (regs [(4, 0x0A)])).map (·.pc) = some 0x0202 := by decide

theorem test_sknp : (after 0xE4A1 (regs [(4, 0x0A)])).map (·.pc) = some 0x0204 ∧
    (after 0xE4A1 ((regs [(4, 0x0A)]).setKey 0xA true)).map (·.pc) = some 0x0202 := by decide

theorem test_wait : (after 0xF30A busy).map (fun t => (t.run, t.waitx, t.pc)) = some (.waitingForKey, 3, 0x0202) := by decide

theorem test_key_event_resolves :
    let t := ({ busy with run := .waitingForKey, waitx := 15 } : State).keyEvent 15 true
    t.run = .running ∧ t.getV 15 = 0x0F ∧ t.keyHeld 15 = true := by decide

theorem test_key_event_held_is_no_edge :
    let t := (({ busy with run := .waitingForKey } : State).setKey 7 true).keyEvent 7 true
    t.run = .waitingForKey ∧ t.getV 0 = 0 := by decide

theorem test_ld_vx_dt : (after 0xF507 { busy with dt := 0x3C }).map (fun t => (t.getV 5, t.dt)) = some (0x3C, 0x3C) := by decide

theorem test_ld_dt_vx : (after 0xF515 (regs [(5, 60)])).map (·.dt) = some 60 := by decide

theorem test_ld_st_vx : (after 0xF518 (regs [(5, 4)])).map (·.st) = some 4 := by decide

/-- Section 2.9: a tick while waiting runs no instruction, decrements, and hands out the frame. -/
theorem test_tick_end_while_waiting :
    (next { busy with run := .waitingForKey, dt := 5, st := 0 }).map (fun t => (t.dt, t.st, t.pc, t.phase, t.output.isSome)) =
      some (4, 0, 0x200, .gap, true) := by decide

/-! ### Errors, fetch, load: 95 section 2.10 -/

theorem test_unknown_recorded : (next busy).map (fun t => (t.pc, t.err, t.slot)) = some (0x0202, [.unknown 0x0000], 1) := by decide

theorem test_fetch_wraps : (next { busy.writeByte 0xFFF 0x12 with pc := 0x0FFF }).map (·.pc) = some 0x02F0 := by decide

theorem test_load_odd_length :
    (match load [0x6A, 0x05, 0x7A] State.reset with
      | .next t => some (t.readByte 0x200, t.readByte 0x202, t.readByte 0x203, t.loadable)
      | .fault _ => none
      | .refused _ => none) = some (0x6A, 0x7A, 0x00, false) := by decide

theorem test_load_twice_refused : load [] busy = .refused .loadOutsideBoot := rfl

theorem test_error_codes : [ErrorRecord.unknown 0, .stackOverflow, .stackUnderflow, .programTooLarge].map errorCode = [1, 2, 3, 4] := by
  decide

/-- R25, R38: the canonical form refuses an entry at its reset contents, an address out of order, and one past the RAM. -/
theorem test_memory_form : Memory.wf [(0, 0xF0)] = false ∧ Memory.wf [(5, 1), (5, 2)] = false ∧ Memory.wf [(4096, 1)] = false ∧
    Memory.wf [(0, 1), (4095, 2)] = true := by decide

/-! ### Witnesses: a state and operands that meet the hypotheses of each statement -/

/-- A state whose next word is `w`. -/
def at_ (w : Word) : State := busy.placeWord w

theorem witness_DecodeOfEncodeIsTheInstruction : wellFormed (.jpV0 0xFFF) = true := by decide

theorem witness_EncodeOfDecodeIsTheWord : decodeWord 0x8FFE#16 = .instr (.shl 15 15) := by decide

theorem witness_DecoderAgreesWithOpcodeMap :
    decodeWord 0xF165#16 = .instr (.loadRegs 1) ∧ 0xF165#16 &&& (opcodeRow (.loadRegs 1)).1 = (opcodeRow (.loadRegs 1)).2 := by decide

theorem witness_DecoderAgreesWithOpcodeMap_no_row (i : Instr) : ¬ inRowOf i 0x5121#16 := by
  unfold inRowOf; cases i <;> (dsimp only [opcodeRow]; decide)

theorem witness_ByteStoreReachesItsCellOnly : (0x1001 : Nat) % 4096 ≠ 0x1000 % 4096 := by decide

theorem witness_FetchIsBigEndianAndWraps : ({ busy with pc := 0xFFFF } : State).pc.toNat % 4096 = 0xFFF := by decide

theorem witness_StepRunsTheDecodedInstruction :
    (at_ 0x6A05).phase = .batch ∧ (at_ 0x6A05).run = .running ∧ (at_ 0x6A05).slot < (at_ 0x6A05).ipf ∧
    Spells (at_ 0x6A05).fetchWord (.ldImm 0xA 5) := by unfold Spells; decide

theorem witness_UnknownWordIsRecordedAndSteppedOver :
    busy.phase = .batch ∧ busy.run = .running ∧ busy.slot < busy.ipf ∧ decodeWord busy.fetchWord = .unknown 0x0000#16 := by decide

theorem witness_EndOfTick_budget_used :
    ({ busy with slot := 4 } : State).phase = .batch ∧ ({ busy with slot := 4 } : State).ipf ≤ 4 := by decide

theorem witness_EndOfTick_waiting :
    ({ busy with run := .waitingForKey } : State).phase = .batch ∧
    ({ busy with run := .waitingForKey } : State).run = .waitingForKey := by decide

/-- Between ticks, waiting for a key, with one input delivered. -/
def gapWith (e : Input) : State := { busy with phase := .gap, run := .waitingForKey, inputs := [e] }

theorem witness_NextTickStartsItsBatch_and_StepsOfATick :
    (gapWith .tick).phase = .gap ∧ (gapWith .tick).inputs = .tick :: [] := by decide

theorem witness_KeyEvent_resolving :
    (gapWith (.key 7 true)).phase = .gap ∧ (gapWith (.key 7 true)).inputs = .key 7 true :: [] ∧
    (gapWith (.key 7 true)).run = .waitingForKey ∧ (gapWith (.key 7 true)).keyHeld 7 = false := by decide

theorem witness_KeyEvent_latching :
    (gapWith (.key 15 false)).phase = .gap ∧ (gapWith (.key 15 false)).inputs = .key 15 false :: [] := by decide

theorem witness_UndeliveredInputIsFree : State.reset.phase = .gap ∧ State.reset.inputs = [] := by decide

/-- An Unknown word: the step appends, so both parts of the statement have an input. -/
theorem witness_ErrorLogGrowsByAtMostOneRecord : ∃ t, step busy = .next t ∧ t.err ≠ busy.err :=
  ⟨_, rfl, by decide⟩

theorem witness_WaitLasts_resolved :
    (gapWith (.key 0 true)).run = .waitingForKey ∧ ∃ t, step (gapWith (.key 0 true)) = .next t ∧ t.run = .running :=
  ⟨rfl, _, rfl, by decide⟩

theorem witness_WaitLasts_waiting :
    (gapWith .tick).run = .waitingForKey ∧ ∃ t, step (gapWith .tick) = .next t ∧ t.run = .waitingForKey :=
  ⟨rfl, _, rfl, by decide⟩

theorem witness_LatchAndOutputsAreFixedInABatch :
    busy.phase = .batch ∧ busy.run = .running ∧ busy.slot < busy.ipf ∧ ∃ t, step busy = .next t :=
  ⟨rfl, rfl, by decide, _, rfl⟩

theorem witness_OnlyTimerWrites : ∃ t, exec (.ldDtVx 0) busy = .next t ∧ (∀ x, Instr.ldDtVx 0 ≠ .ldStVx x) :=
  ⟨_, rfl, fun _ h => by cases h⟩

theorem witness_OnlyCallAndRet : (∃ t, exec .cls busy = .next t) ∧ (∃ t, exec .ret busy = .next t) ∧
    (∃ t, exec (.call 0) busy = .next t) ∧ (∃ t, exec (.call 0) { busy with sp := 16 } = .next t) :=
  ⟨⟨_, rfl⟩, ⟨_, rfl⟩, ⟨_, rfl⟩, ⟨_, rfl⟩⟩

theorem witness_OnlyFlagWriters :
    ∃ t, exec (.ldImm 14 1) busy = .next t ∧ ¬ WritesFlag (.ldImm 14 1) ∧ ¬ NamesVF (.ldImm 14 1) :=
  ⟨_, rfl, id, by unfold NamesVF; decide⟩

theorem witness_OnlyTwoInstructionsStore :
    ∃ t, exec (.loadRegs 15) busy = .next t ∧ (∀ x, Instr.loadRegs 15 ≠ .storeRegs x) ∧ (∀ x, Instr.loadRegs 15 ≠ .ldBVx x) :=
  ⟨_, rfl, fun _ h => (by cases h), fun _ h => (by cases h)⟩

theorem witness_OnlyControlFlowWritesPC : ∃ t, exec (.jp 0x300) busy = .next t ∧ t.pc ≠ busy.pc :=
  ⟨_, rfl, by decide⟩

theorem witness_SelfJump : (at_ 0x1200).phase = .batch ∧ (at_ 0x1200).run = .running ∧ (at_ 0x1200).slot < (at_ 0x1200).ipf ∧
    atSelfJump (at_ 0x1200) :=
  ⟨rfl, rfl, by decide, 0x200, by decide, by decide⟩

theorem witness_EveryStepKeepsTheInvariant : Inv busy ∧ ∃ t, step busy = .next t :=
  ⟨⟨rfl, by decide, fun h => by cases h⟩, _, rfl⟩

theorem witness_HostActsKeepTheInvariant :
    Inv State.reset ∧ (∃ t, hostStep .reset State.reset = .next t) ∧ (∃ t, hostStep (.load [1]) State.reset = .next t) ∧
    ∃ t, hostStep (.deliver .tick) State.reset = .next t :=
  ⟨⟨rfl, Nat.zero_le _, fun _ => ⟨rfl, rfl, rfl⟩⟩, ⟨_, rfl⟩, ⟨_, rfl⟩, ⟨_, rfl⟩⟩

/-- The three clauses of the load, at the edges of the image's length: 3584 bytes fit, 3585 do not. -/
theorem witness_Load : busy.loadable = false ∧ State.reset.loadable = true ∧
    0x200 + (List.replicate 3584 (0 : Byte)).length ≤ 4096 ∧ ¬ 0x200 + (List.replicate 3585 (0 : Byte)).length ≤ 4096 := by
  refine ⟨rfl, rfl, ?_, ?_⟩ <;> rw [List.length_replicate] <;> decide

theorem witness_Call_and_Return : ({ busy with sp := 16 } : State).sp.val = 16 ∧ ({ busy with sp := 15 } : State).sp.val ≠ 16 ∧
    busy.sp.val = 0 ∧ ({ busy with sp := 1 } : State).sp.val ≠ 0 := by decide

/-- A sprite of one lit pixel at the origin (63, 31), its registers not `VF`. -/
theorem witness_DoubleDraw : ∃ t u, exec (.drw 0 1 1) (drawing [0x80] 63 31) = .next t ∧
    t.getV 0 = (drawing [0x80] 63 31).getV 0 ∧ t.getV 1 = (drawing [0x80] 63 31).getV 1 ∧ exec (.drw 0 1 1) t = .next u :=
  ⟨_, _, rfl, by decide, by decide, rfl⟩

/-- The other trailing nibbles of families 5 and 9, at the ends of their range. -/
theorem witness_RegisterSkips_unknown : (1 : Nibble) ≠ 0 ∧ (15 : Nibble) ≠ 0 := by decide

theorem witness_KeySkips : (7 : Nibble).toNat = ((regs [(4, 0x17)]).getV 4).toNat % 16 := by decide

/-- Operands for the conditional parts of the register statements: a destination other than `VF`, another register, and `VF`. -/
theorem witness_ResultAndFlag : (0 : Nibble) ≠ 15 ∧ (14 : Nibble) ≠ 15 ∧ (14 : Nibble) ≠ 0 := by decide

/-- A byte outside the stored ones when the transfer wraps (sixteen bytes at 0xFF8). -/
theorem witness_BulkStore_outside :
    ∀ j : Nibble, j.toNat ≤ (15 : Nibble).toNat → 0x008 % 4096 ≠ (0xFF8 + j.toNat) % 4096 := by decide

theorem witness_Bcd_outside : ∀ j, j < 3 → 2 % 4096 ≠ (0xFFF + j) % 4096 := by decide

end Sys2Proof.Tests
end

section
/-! PROOFS. The reset state (10_state R38): what each accessor of the state reads after reset. -/

namespace Sys2Proof.Machine

/-- With no cell listed, a read gives the reset contents of the effective address. -/
theorem State.readByte_reset (a : Nat) : State.reset.readByte a = resetByte (effective a) := rfl

theorem effective_of_lt {a : Nat} (h : a < 4096) : effective a = a := Nat.mod_eq_of_lt h

theorem State.readByte_reset_font {a : Nat} (h : a < 80) : State.reset.readByte a = Config.font.getD a 0 := by
  rw [State.readByte_reset, effective_of_lt (by omega)]
  exact if_pos h

theorem State.readByte_reset_above_font {a : Nat} (hlo : 80 ≤ a) (hhi : a < 4096) : State.reset.readByte a = 0 := by
  rw [State.readByte_reset, effective_of_lt hhi]
  exact if_neg (Nat.not_lt.mpr hlo)

@[simp] theorem State.getV_reset (x : Nibble) : State.reset.getV x = 0 :=
  Vector.getElem_replicate x.isLt

theorem State.stk_reset (j : Fin 16) : State.reset.stk[j] = 0 :=
  Vector.getElem_replicate j.isLt

@[simp] theorem State.keyHeld_reset (key : Nibble) : State.reset.keyHeld key = false :=
  Vector.getElem_replicate key.isLt

/-- The framebuffer at reset is the one `CLS` leaves. -/
@[simp] theorem State.fb_reset : State.reset.fb = Framebuffer.clear := rfl

end Sys2Proof.Machine
end

section
/-! PROOFS. The obligation about the reset values. -/

namespace Sys2Proof.Proofs

open Sys2Proof.Machine

/-- Settles O29: the indexed pieces by the lemma about their accessor at reset, each scalar by its field of `State.reset`. -/
theorem resetValuesAreAsListed : Obligations.ResetValuesAreAsListed := by
  unfold Obligations.ResetValuesAreAsListed
  have hcells (y x : Nat) : State.reset.fb.cell y x = false := by
    rw [State.fb_reset, Framebuffer.cell_clear]
  exact ⟨fun _ => State.readByte_reset_font, fun _ => State.readByte_reset_above_font, State.getV_reset,
    rfl, rfl, rfl, State.stk_reset, rfl, rfl, State.keyHeld_reset, hcells, rfl, rfl, rfl, rfl⟩

end Sys2Proof.Proofs
end

section
/-! PROOFS. The decoder against the opcode map (30_encoding R80): what it answers to a word fits the word, and a word in a row
decodes into that row. -/

namespace Sys2Proof

section
variable {w v : Word}

/-- What an answer of the decoder has to be for the word `w`: an instruction in whose row `w` is (R80), or Unknown with `w` as its
tag (R82). -/
def Operation.Fits (w : Word) : Operation → Prop
  | .instr i => inRowOf i w
  | .unknown v => v = w

/-! ### What the decoder answers fits the word -/

theorem decodeFamily0_fits : (decodeFamily0 w).Fits w := by
  unfold decodeFamily0
  split_ifs with hcls hret
  · subst hcls; exact Laws.OpcodeRow.cls
  · subst hret; exact Laws.OpcodeRow.ret
  · rfl

/-- Each branch asks for the trailing nibble that its row's match holds. -/
theorem decodeFamily8_fits (hop : fieldOp w = 0x8#4) : (decodeFamily8 w).Fits w := by
  dsimp only [decodeFamily8]
  split_ifs with h0 h1 h2 h3 h4 h5 h6 h7 hE
  · exact (and_F00F_iff w 0x8#4 0x0#4).2 ⟨hop, h0⟩
  · exact (and_F00F_iff w 0x8#4 0x1#4).2 ⟨hop, h1⟩
  · exact (and_F00F_iff w 0x8#4 0x2#4).2 ⟨hop, h2⟩
  · exact (and_F00F_iff w 0x8#4 0x3#4).2 ⟨hop, h3⟩
  · exact (and_F00F_iff w 0x8#4 0x4#4).2 ⟨hop, h4⟩
  · exact (and_F00F_iff w 0x8#4 0x5#4).2 ⟨hop, h5⟩
  · exact (and_F00F_iff w 0x8#4 0x6#4).2 ⟨hop, h6⟩
  · exact (and_F00F_iff w 0x8#4 0x7#4).2 ⟨hop, h7⟩
  · exact (and_F00F_iff w 0x8#4 0xE#4).2 ⟨hop, hE⟩
  · rfl

theorem decodeFamilyE_fits (hop : fieldOp w = 0xE#4) : (decodeFamilyE w).Fits w := by
  dsimp only [decodeFamilyE]
  split_ifs with h9E hA1
  · exact (and_F0FF_iff w 0xE#4 0x9E#8).2 ⟨hop, h9E⟩
  · exact (and_F0FF_iff w 0xE#4 0xA1#8).2 ⟨hop, hA1⟩
  · rfl

/-- Each branch asks for the trailing byte that its row's match holds. -/
theorem decodeFamilyF_fits (hop : fieldOp w = 0xF#4) : (decodeFamilyF w).Fits w := by
  dsimp only [decodeFamilyF]
  split_ifs with h07 h0A h15 h18 h1E h29 h33 h55 h65
  · exact (and_F0FF_iff w 0xF#4 0x07#8).2 ⟨hop, h07⟩
  · exact (and_F0FF_iff w 0xF#4 0x0A#8).2 ⟨hop, h0A⟩
  · exact (and_F0FF_iff w 0xF#4 0x15#8).2 ⟨hop, h15⟩
  · exact (and_F0FF_iff w 0xF#4 0x18#8).2 ⟨hop, h18⟩
  · exact (and_F0FF_iff w 0xF#4 0x1E#8).2 ⟨hop, h1E⟩
  · exact (and_F0FF_iff w 0xF#4 0x29#8).2 ⟨hop, h29⟩
  · exact (and_F0FF_iff w 0xF#4 0x33#8).2 ⟨hop, h33⟩
  · exact (and_F0FF_iff w 0xF#4 0x55#8).2 ⟨hop, h55⟩
  · exact (and_F0FF_iff w 0xF#4 0x65#8).2 ⟨hop, h65⟩
  · rfl

/-- The decoder's answer fits the word, for both values of `BNNN_ENABLED`: family by family. -/
theorem decodeWordWith_fits (bnnn : Bool) (w : Word) : (decodeWordWith bnnn w).Fits w := by
  obtain h | h | h | h | h | h | h | h | h | h | h | h | h | h | h | h := nibble_cases (fieldOp w)
  · rw [decodeWordWith_op0 h]; exact decodeFamily0_fits
  · rw [decodeWordWith_op1 h]; exact (and_F000_iff w 0x1#4).2 h
  · rw [decodeWordWith_op2 h]; exact (and_F000_iff w 0x2#4).2 h
  · rw [decodeWordWith_op3 h]; exact (and_F000_iff w 0x3#4).2 h
  · rw [decodeWordWith_op4 h]; exact (and_F000_iff w 0x4#4).2 h
  · rw [decodeWordWith_op5 h]
    split_ifs with hn
    · exact (and_F00F_iff w 0x5#4 0x0#4).2 ⟨h, hn⟩
    · rfl
  · rw [decodeWordWith_op6 h]; exact (and_F000_iff w 0x6#4).2 h
  · rw [decodeWordWith_op7 h]; exact (and_F000_iff w 0x7#4).2 h
  · rw [decodeWordWith_op8 h]; exact decodeFamily8_fits h
  · rw [decodeWordWith_op9 h]
    split_ifs with hn
    · exact (and_F00F_iff w 0x9#4 0x0#4).2 ⟨h, hn⟩
    · rfl
  · rw [decodeWordWith_opA h]; exact (and_F000_iff w 0xA#4).2 h
  · rw [decodeWordWith_opB h]
    split_ifs
    · exact (and_F000_iff w 0xB#4).2 h
    · rfl
  · rw [decodeWordWith_opC h]; exact (and_F000_iff w 0xC#4).2 h
  · rw [decodeWordWith_opD h]; exact (and_F000_iff w 0xD#4).2 h
  · rw [decodeWordWith_opE h]; exact decodeFamilyE_fits h
  · rw [decodeWordWith_opF h]; exact decodeFamilyF_fits h

theorem inRowOf_of_decodeWord {i : Instr} (h : decodeWord w = .instr i) : inRowOf i w := by
  have hfits : (decodeWord w).Fits w := decodeWordWith_fits _ w
  rwa [h] at hfits

theorem decodeWord_of_no_row (h : ∀ i, ¬ inRowOf i w) : decodeWord w = .unknown w := by
  have hfits : (decodeWord w).Fits w := decodeWordWith_fits _ w
  cases hd : decodeWord w with
  | instr i => exact absurd (inRowOf_of_decodeWord hd) (h i)
  | unknown v => rw [hd] at hfits; exact congrArg Operation.unknown hfits

/-! ### A word in a row decodes into that row -/

/-- A masked word shows the fields its mask keeps. -/
theorem fieldOp_of_and_F000 (h : w &&& 0xF000#16 = v) : fieldOp w = v.extractLsb' 12 4 := by
  rw [← h, and_F000]; exact (fieldOp_nnn _ _).symm

theorem fields_of_and_F00F (h : w &&& 0xF00F#16 = v) :
    fieldOp w = v.extractLsb' 12 4 ∧ fieldN w = v.extractLsb' 0 4 := by
  rw [← h, and_F00F]; exact ⟨(fieldOp_xyn _ _ _ _).symm, (fieldN_xyn _ _ _ _).symm⟩

theorem fields_of_and_F0FF (h : w &&& 0xF0FF#16 = v) :
    fieldOp w = v.extractLsb' 12 4 ∧ fieldKK w = v.extractLsb' 0 8 := by
  rw [← h, and_F0FF]; exact ⟨(fieldOp_xkk _ _ _).symm, (fieldKK_xkk _ _ _).symm⟩

/-- The rows by their mask: the fields a mask keeps are those the decoder asks for. -/
theorem decodeWord_of_inRowOf {i : Instr} (h : inRowOf i w) :
    ∃ j, decodeWord w = .instr j ∧ opcodeRow j = opcodeRow i := by
  cases i
  case cls | ret =>
    have hw : w = _ := (BitVec.and_allOnes (x := w)).symm.trans h
    exact ⟨_, congrArg decodeWord hw, rfl⟩
  case jp | call | seImm | sneImm | ldImm | addImm | ldI | jpV0 | rnd | drw =>
    have hop := fieldOp_of_and_F000 h
    simp [decodeWord, decodeWordWith, hop, opcodeRow, Config.bnnnEnabled]
  case seReg | sneReg =>
    obtain ⟨hop, hn⟩ := fields_of_and_F00F h
    simp [decodeWord, decodeWordWith, hop, hn, opcodeRow]
  case ldReg | orReg | andReg | xorReg | addReg | subReg | shr | subnReg | shl =>
    obtain ⟨hop, hn⟩ := fields_of_and_F00F h
    simp [decodeWord, decodeWordWith_op8, hop, decodeFamily8, hn, opcodeRow]
  case skp | sknp =>
    obtain ⟨hop, hkk⟩ := fields_of_and_F0FF h
    simp [decodeWord, decodeWordWith_opE, hop, decodeFamilyE, hkk, opcodeRow]
  case ldVxDt | ldVxK | ldDtVx | ldStVx | addIVx | ldFVx | ldBVx | storeRegs | loadRegs =>
    obtain ⟨hop, hkk⟩ := fields_of_and_F0FF h
    simp [decodeWord, decodeWordWith_opF, hop, decodeFamilyF, hkk, opcodeRow]

end

end Sys2Proof
end

section
/-! PROOFS. The obligation about the opcode map. -/

namespace Sys2Proof.Proofs

/-- Settles O4: the decoder's answer fits the word, which gives the first and the last part, and each mask of the map keeps the
fields by which the decoder chooses, which gives the middle one. -/
theorem decoderAgreesWithOpcodeMap : Obligations.DecoderAgreesWithOpcodeMap := by
  unfold Obligations.DecoderAgreesWithOpcodeMap
  exact fun _ => ⟨fun _ => inRowOf_of_decodeWord, fun _ => decodeWord_of_inRowOf, decodeWord_of_no_row⟩

end Sys2Proof.Proofs
end

section
/-! PROOFS. The word that spells an instruction is the one `encode` gives (30_encoding R79, R80), for both values of
`BNNN_ENABLED`. -/

namespace Sys2Proof

/-- The instructions by their format (R77): each field of the word the decoder looks at is the part `encode` put there. -/
theorem decodeWordWith_encode {bnnn : Bool} {i : Instr} (h : wellFormedWith bnnn i = true) :
    decodeWordWith bnnn (encode i) = .instr i := by
  cases i
  case cls | ret => rfl
  case jpV0 nnn =>
    have hb : bnnn = true := h
    simp [encode, decodeWordWith_opB, hb]
  case jp | call | ldI | seImm | sneImm | ldImm | addImm | rnd | seReg | sneReg | drw => simp [encode, decodeWordWith]
  case ldReg | orReg | andReg | xorReg | addReg | subReg | shr | subnReg | shl =>
    simp [encode, decodeWordWith_op8, decodeFamily8]
  case skp | sknp => simp [encode, decodeWordWith_opE, decodeFamilyE]
  case ldVxDt | ldVxK | ldDtVx | ldStVx | addIVx | ldFVx | ldBVx | storeRegs | loadRegs =>
    simp [encode, decodeWordWith_opF, decodeFamilyF]

theorem Claims.spells_encode {i : Instr} (h : wellFormed i = true) : Claims.Spells (encode i) i :=
  decodeWordWith_encode h

end Sys2Proof
end

section
/-! PROOFS. What the control-flow instructions do (40_control_flow): the address they write to `PC`, the frame of a write to
`PC`, a skip, and `CALL` and `RET` on each outcome of the stack. -/

namespace Sys2Proof.Machine

open Sys2Proof.Claims

/-! ### Addresses and sums written to `PC` -/

@[simp] theorem addrImm_toNat (nnn : Addr12) : (addrImm nnn).toNat = nnn.toNat :=
  BitVec.toNat_setWidth_of_le (by decide)

@[simp] theorem zextByte_toNat (b : Byte) : (zextByte b).toNat = b.toNat :=
  BitVec.toNat_setWidth_of_le (by decide)

/-! ### A write to `PC` and a skip -/

theorem onlyPc_setPc (s : State) (a : Word) : OnlyPc s (s.setPc a) := ⟨rfl, fun _ => rfl⟩

theorem onlyPc_skipIf (s : State) (c : Bool) : OnlyPc s (s.skipIf c) := by
  cases c
  case false => exact ⟨rfl, fun _ => rfl⟩
  case true => exact onlyPc_setPc s _

/-- The extra advance of a skip wraps at 16 bits (10_state R26). -/
theorem State.skipIf_pc_toNat (s : State) (c : Bool) :
    (s.skipIf c).pc.toNat = if c = true then (s.pc.toNat + 2) % 65536 else s.pc.toNat := by
  rw [State.skipIf_pc]
  split
  · exact BitVec.toNat_add _ _
  · rfl

/-- An instruction whose meaning is a skip on a condition `P` (40_control_flow R108). -/
theorem exec_skips {i : Instr} {s : State} {c : Bool} {P : Prop} [Decidable P]
    (hexec : exec i s = .next (s.skipIf c)) (hc : c = true ↔ P) :
    ∃ t, exec i s = .next t ∧ OnlyPc s t ∧
      t.pc.toNat = if P then (s.pc.toNat + 2) % 65536 else s.pc.toNat :=
  ⟨_, hexec, onlyPc_skipIf s c, by simp only [State.skipIf_pc_toNat, hc]⟩

/-! ### `CALL` and `RET` on each outcome of the stack -/

section
variable {s t : State} {a : Word}

theorem exec_call_of_push (nnn : Addr12) (h : s.push s.pc = some t) :
    exec (.call nnn) s = .next (t.setPc (addrImm nnn)) := by
  simp only [exec, execCall, h]

theorem exec_call_of_full (nnn : Addr12) (h : s.push s.pc = none) :
    exec (.call nnn) s = .next (s.raise .stackOverflow) := by
  simp only [exec, execCall, h]

theorem exec_ret_of_pop (h : s.pop = some (a, t)) : exec .ret s = .next (t.setPc a) := by
  simp only [exec, execRet, h]

theorem exec_ret_of_empty (h : s.pop = none) : exec .ret s = .next (s.raise .stackUnderflow) := by
  simp only [exec, execRet, h]

end

end Sys2Proof.Machine
end

section
/-! PROOFS. The obligations about the control-flow instructions. -/

namespace Sys2Proof.Proofs

open Sys2Proof.Machine Sys2Proof.Claims

/-- Settles O33: a push either finds the stack full or fills the slot at `SP`. -/
theorem callPushesAndJumpsOrOverflows : Obligations.CallPushesAndJumpsOrOverflows := by
  unfold Obligations.CallPushesAndJumpsOrOverflows
  intro nnn s
  refine ⟨spells_encode (i := .call nnn) rfl, ?_⟩
  obtain ⟨hfull, hpush⟩ | ⟨hroom, t, hpush, hframe, hsp, hstk⟩ := s.push_cases s.pc
  · refine ⟨_, exec_call_of_full nnn hpush, fun _ => rfl, ?_⟩
    rw [if_pos hfull]
    rfl
  · have hmem : t.mem = s.mem := by rw [hframe]
    refine ⟨_, exec_call_of_push nnn hpush, State.readByte_congr hmem, ?_⟩
    rw [if_neg (Nat.ne_of_lt hroom)]
    exact ⟨hstk, hsp, addrImm_toNat nnn, congrArg (State.setPc · (addrImm nnn)) hframe⟩

/-- Settles O34: a pop either finds the stack empty or answers the slot below `SP`. -/
theorem returnPopsPCOrUnderflows : Obligations.ReturnPopsPCOrUnderflows := by
  unfold Obligations.ReturnPopsPCOrUnderflows
  refine ⟨spells_encode (i := .ret) rfl, fun s => ?_⟩
  obtain ⟨hempty, hpop⟩ | ⟨hheld, a, t, hpop, hframe, hsp, hslot⟩ := s.pop_cases
  · refine ⟨_, exec_ret_of_empty hpop, fun _ => rfl, ?_⟩
    rw [if_pos hempty]
    rfl
  · have hmem : t.mem = s.mem := by rw [hframe]
    refine ⟨_, exec_ret_of_pop hpop, State.readByte_congr hmem, ?_⟩
    rw [if_neg (Nat.ne_of_gt hheld)]
    exact ⟨hsp, hslot, congrArg (State.setPc · a) hframe⟩

/-- Settles O35: both are skips on their comparison. -/
theorem immediateSkipsCompareUnsigned : Obligations.ImmediateSkipsCompareUnsigned := by
  unfold Obligations.ImmediateSkipsCompareUnsigned
  intro x kk s
  exact ⟨spells_encode (i := .seImm x kk) rfl, spells_encode (i := .sneImm x kk) rfl,
    exec_skips rfl decide_eq_true_iff, exec_skips rfl decide_eq_true_iff⟩

/-- Settles O36: both are skips on their comparison, and their families ask for the trailing nibble 0. -/
theorem registerSkipsCompareRegisters : Obligations.RegisterSkipsCompareRegisters := by
  unfold Obligations.RegisterSkipsCompareRegisters
  intro x y s
  refine ⟨spells_encode (i := .seReg x y) rfl, spells_encode (i := .sneReg x y) rfl, fun n hn => ⟨?_, ?_⟩,
    exec_skips rfl decide_eq_true_iff, exec_skips rfl decide_eq_true_iff⟩
  · exact (decodeWordWith_op5 (fieldOp_xyn _ _ _ _)).trans (if_neg (by rwa [fieldN_xyn]))
  · exact (decodeWordWith_op9 (fieldOp_xyn _ _ _ _)).trans (if_neg (by rwa [fieldN_xyn]))

/-- Settles O37: the word is the jump's by `decodeWordWith_encode`, or else Unknown by its family's parameter. -/
theorem indexedJumpAddsV0 : Obligations.IndexedJumpAddsV0 := by
  unfold Obligations.IndexedJumpAddsV0
  intro nnn s
  have hunknown : decodeWordWith false (0xB#4 ++ nnn) = .unknown (0xB#4 ++ nnn) :=
    decodeWordWith_opB (fieldOp_nnn _ _)
  have hsum : (addrImm nnn + zextByte (s.getV 0)).toNat = (nnn.toNat + (s.getV 0).toNat) % 65536 := by
    rw [BitVec.toNat_add, addrImm_toNat, zextByte_toNat]
  exact ⟨decodeWordWith_encode (i := .jpV0 nnn) rfl, hunknown, _, rfl, hsum, onlyPc_setPc s _⟩

/-- Settles O32: a write of the zero-extended address to `PC`. -/
theorem jumpSetsPC : Obligations.JumpSetsPC := by
  unfold Obligations.JumpSetsPC
  exact fun nnn s => ⟨spells_encode (i := .jp nnn) rfl, _, rfl, addrImm_toNat nnn, onlyPc_setPc s _⟩

end Sys2Proof.Proofs
end

section
/-! PROOFS. What the arithmetic instructions do (41_arithmetic): the frame of a register write, the result and its flag with
`x = 15` included (R121), and each flag and shift as arithmetic. -/

namespace Sys2Proof.Machine

open Sys2Proof.Claims

/-! ### Register writes -/

theorem onlyRegs_setV (s : State) (x : Nibble) (b : Byte) : OnlyRegs s (s.setV x b) := ⟨rfl, fun _ => rfl⟩

theorem otherRegsSame_setV (s : State) (x : Nibble) (b : Byte) : OtherRegsSame s (s.setV x b) x := fun j hj => by
  rw [State.getV_setV, if_neg hj]

theorem onlyRegs_setResult (s : State) (x : Nibble) (r : Byte) (f : Bool) : OnlyRegs s (s.setResult x r f) :=
  ⟨rfl, fun _ => rfl⟩

@[simp] theorem State.getV_setResult_flag (s : State) (x : Nibble) (r : Byte) (f : Bool) :
    (s.setResult x r f).getV 15 = flagByte f := by
  rw [State.getV_setResult, if_pos rfl]

/-! ### Flags and shifts as arithmetic -/

theorem flagByte_toNat_one_or_zero (f : Bool) : (flagByte f).toNat = 1 ∨ (flagByte f).toNat = 0 := by
  cases f
  · exact .inr rfl
  · exact .inl rfl

theorem flagByte_toNat_eq_one (f : Bool) : (flagByte f).toNat = 1 ↔ f = true := by
  rw [flagByte_toNat]
  simp

theorem carry_iff (a b : Byte) : carry a b = true ↔ 255 < a.toNat + b.toNat := decide_eq_true_iff

theorem notBorrow_iff (a b : Byte) : notBorrow a b = true ↔ b.toNat ≤ a.toNat := decide_eq_true_iff

theorem rightBit_iff (v : Byte) : rightBit v = true ↔ v.toNat % 2 = 1 := by
  rw [rightBit, BitVec.getLsbD, Nat.testBit_zero, decide_eq_true_iff]

/-- Bit 7 is the most significant bit of a byte. -/
theorem leftBit_iff (v : Byte) : leftBit v = true ↔ 128 ≤ v.toNat := by
  have hmsb : leftBit v = v.msb := (BitVec.msb_eq_getLsbD_last v).symm
  rw [hmsb, BitVec.msb_eq_decide, decide_eq_true_iff]

/-- The difference of two bytes modulo 256, the minuend first as R117 has it. -/
theorem toNat_sub_byte (a b : Byte) : (a - b).toNat = (256 + a.toNat - b.toNat) % 256 := by
  have hb := b.isLt
  rw [BitVec.toNat_sub]
  congr 1
  omega

theorem toNat_shiftRight_one (v : Byte) : (v >>> 1).toNat = v.toNat / 2 := by
  rw [BitVec.toNat_ushiftRight, Nat.shiftRight_one]

theorem toNat_shiftLeft_one (v : Byte) : (v <<< 1).toNat = v.toNat * 2 % 256 := by
  rw [BitVec.toNat_shiftLeft, Nat.shiftLeft_eq]

theorem State.shiftOperand_eq (s : State) (src : ShiftSrc) (x y : Nibble) :
    s.shiftOperand src x y = ShiftValue s src x y := by
  cases src <;> rfl

/-! ### A result and its flag -/

section
variable {s : State} {x : Nibble} {r : Byte} {f : Bool} {result : Nat} {flag : Prop}

/-- A result that is the number `result` and a flag that says `flag`: the four parts of `ResultAndFlag` by the register read. -/
theorem resultAndFlag_setResult (hr : r.toNat = result) (hf : f = true ↔ flag) :
    ResultAndFlag s (s.setResult x r f) x result flag := by
  refine ⟨?_, ?_, fun hx => ?_, fun j hj hjx => ?_⟩
  · rw [State.getV_setResult_flag]
    exact flagByte_toNat_one_or_zero f
  · rw [State.getV_setResult_flag, flagByte_toNat_eq_one, hf]
  · rw [State.getV_setResult, if_neg hx, if_pos rfl, hr]
  · rw [State.getV_setResult, if_neg hj, if_neg hjx]

/-- An instruction whose meaning is a result and then its flag (41_arithmetic R121). -/
theorem exec_setsResult {i : Instr} (hexec : exec i s = .next (s.setResult x r f)) (hr : r.toNat = result)
    (hf : f = true ↔ flag) : ∃ t, exec i s = .next t ∧ OnlyRegs s t ∧ ResultAndFlag s t x result flag :=
  ⟨_, hexec, onlyRegs_setResult s x r f, resultAndFlag_setResult hr hf⟩

end

/-- An instruction whose meaning is a write of one register, the value known bit by bit (41_arithmetic R113 to R115). -/
theorem exec_setsBits {i : Instr} {s : State} {x : Nibble} {r : Byte} {bit : Nat → Bool}
    (hexec : exec i s = .next (s.setV x r)) (hbit : ∀ b : Nat, r.getLsbD b = bit b) :
    ∃ t, exec i s = .next t ∧ OtherRegsSame s t x ∧ OnlyRegs s t ∧ ∀ b : Nat, (t.getV x).getLsbD b = bit b :=
  ⟨_, hexec, otherRegsSame_setV s x r, onlyRegs_setV s x r, by rwa [State.getV_setV_same]⟩

end Sys2Proof.Machine
end

section
/-! PROOFS. The obligations about the arithmetic instructions. -/

namespace Sys2Proof.Proofs

open Sys2Proof.Machine Sys2Proof.Claims

/-- Settles O41: each writes one register, whose bits are the operation's on the bits. -/
theorem logicalOperationsAreBitwise : Obligations.LogicalOperationsAreBitwise := by
  unfold Obligations.LogicalOperationsAreBitwise
  intro x y s
  exact ⟨spells_encode (i := .orReg x y) rfl, spells_encode (i := .andReg x y) rfl, spells_encode (i := .xorReg x y) rfl,
    exec_setsBits rfl fun _ => BitVec.getLsbD_or, exec_setsBits rfl fun _ => BitVec.getLsbD_and,
    exec_setsBits rfl fun _ => BitVec.getLsbD_xor⟩

/-- Settles O42: a result and its flag, the flag being the carry. -/
theorem addSetsCarry : Obligations.AddSetsCarry := by
  unfold Obligations.AddSetsCarry
  intro x y s
  exact ⟨spells_encode (i := .addReg x y) rfl, exec_setsResult rfl (BitVec.toNat_add _ _) (carry_iff _ _)⟩

/-- Settles O43: both are a result and its flag, with minuend and subtrahend exchanged. -/
theorem subtractionsSetNotBorrow : Obligations.SubtractionsSetNotBorrow := by
  unfold Obligations.SubtractionsSetNotBorrow
  intro x y s
  exact ⟨spells_encode (i := .subReg x y) rfl, spells_encode (i := .subnReg x y) rfl,
    exec_setsResult rfl (toNat_sub_byte _ _) (notBorrow_iff _ _),
    exec_setsResult rfl (toNat_sub_byte _ _) (notBorrow_iff _ _)⟩

/-- Settles O44: a result and its flag on the operand the convention names. -/
theorem shiftRightSetsDroppedBit : Obligations.ShiftRightSetsDroppedBit := by
  unfold Obligations.ShiftRightSetsDroppedBit
  intro src x y s
  rw [← State.shiftOperand_eq]
  exact ⟨spells_encode (i := .shr x y) rfl, rfl, onlyRegs_setResult s x _ _,
    resultAndFlag_setResult (toNat_shiftRight_one _) (rightBit_iff _)⟩

/-- Settles O45: a result and its flag on the operand the convention names. -/
theorem shiftLeftSetsDroppedBit : Obligations.ShiftLeftSetsDroppedBit := by
  unfold Obligations.ShiftLeftSetsDroppedBit
  intro src x y s
  rw [← State.shiftOperand_eq]
  exact ⟨spells_encode (i := .shl x y) rfl, rfl, onlyRegs_setResult s x _ _,
    resultAndFlag_setResult (toNat_shiftLeft_one _) (leftBit_iff _)⟩

/-- Settles O38: a write of one register. -/
theorem loadImmediateWritesVx : Obligations.LoadImmediateWritesVx := by
  unfold Obligations.LoadImmediateWritesVx
  exact fun x kk s => ⟨spells_encode (i := .ldImm x kk) rfl, _, rfl, State.getV_setV_same s x kk,
    otherRegsSame_setV s x kk, onlyRegs_setV s x kk⟩

/-- Settles O39: a write of one register; a sum of bytes is modulo 256. -/
theorem addImmediateWrapsWithoutFlag : Obligations.AddImmediateWrapsWithoutFlag := by
  unfold Obligations.AddImmediateWrapsWithoutFlag
  intro x kk s
  refine ⟨spells_encode (i := .addImm x kk) rfl, _, rfl, ?_, otherRegsSame_setV s x _, onlyRegs_setV s x _⟩
  rw [State.getV_setV_same]
  exact BitVec.toNat_add _ _

/-- Settles O40: a write of one register. -/
theorem copyWritesVyToVx : Obligations.CopyWritesVyToVx := by
  unfold Obligations.CopyWritesVyToVx
  exact fun x y s => ⟨spells_encode (i := .ldReg x y) rfl, _, rfl, State.getV_setV_same s x (s.getV y),
    otherRegsSame_setV s x _, onlyRegs_setV s x _⟩

end Sys2Proof.Proofs
end

section
/-! PROOFS. What the index instructions do (42_index): the frame of a write to `I`, and the glyph address as arithmetic. -/

namespace Sys2Proof.Machine

open Sys2Proof.Claims

theorem onlyI_setI (s : State) (a : Word) : OnlyI s (s.setI a) := ⟨rfl, fun _ => rfl⟩

theorem toNat_lowNibble (b : Byte) : (b &&& 0x0F#8).toNat = b.toNat % 16 :=
  (BitVec.toNat_and _ _).trans (Nat.and_two_pow_sub_one_eq_mod b.toNat 4)

/-- Five times a nibble is below 65536, so the address does not wrap (42_index R127). -/
@[simp] theorem glyphAddress_toNat (b : Byte) : (glyphAddress b).toNat = 5 * (b.toNat % 16) := by
  have hnibble : ((b &&& 0x0F#8).setWidth 16).toNat = b.toNat % 16 :=
    (BitVec.toNat_setWidth_of_le (by decide)).trans (toNat_lowNibble b)
  rw [glyphAddress, BitVec.toNat_mul, hnibble]
  exact Nat.mod_eq_of_lt (show 5 * (b.toNat % 16) < 65536 by omega)

/-- An instruction whose meaning is a write of `I`, the address known as a number (42_index R125 to R127). -/
theorem exec_setsI {i : Instr} {s : State} {a : Word} {n : Nat} (hexec : exec i s = .next (s.setI a))
    (ha : a.toNat = n) : ∃ t, exec i s = .next t ∧ t.i.toNat = n ∧ OnlyI s t :=
  ⟨_, hexec, ha, onlyI_setI s a⟩

end Sys2Proof.Machine
end

section
/-! PROOFS. The obligations about the index instructions. -/

namespace Sys2Proof.Proofs

open Sys2Proof.Machine Sys2Proof.Claims

/-- Settles O46: a write of the zero-extended address to `I`. -/
theorem loadIndexSetsI : Obligations.LoadIndexSetsI := by
  unfold Obligations.LoadIndexSetsI
  exact fun nnn s => ⟨spells_encode (i := .ldI nnn) rfl, exec_setsI rfl (addrImm_toNat nnn)⟩

/-- Settles O47: a write of `I`; the sum with the zero-extended register is modulo 65536. -/
theorem addIndexWrapsWithoutFlag : Obligations.AddIndexWrapsWithoutFlag := by
  unfold Obligations.AddIndexWrapsWithoutFlag
  intro x s
  have hsum : (s.i + zextByte (s.getV x)).toNat = (s.i.toNat + (s.getV x).toNat) % 65536 := by
    rw [BitVec.toNat_add, zextByte_toNat]
  exact ⟨spells_encode (i := .addIVx x) rfl, exec_setsI rfl hsum⟩

/-- Settles O48: a write of the glyph address to `I`. -/
theorem glyphAddressIsFiveTimesTheDigit : Obligations.GlyphAddressIsFiveTimesTheDigit := by
  unfold Obligations.GlyphAddressIsFiveTimesTheDigit
  exact fun x s => ⟨spells_encode (i := .ldFVx x) rfl, exec_setsI rfl (glyphAddress_toNat _)⟩

end Sys2Proof.Proofs
end

section
/-! PROOFS. What the bulk transfers do (44_memory_transfer): `I` afterwards as a number, the bytes after a bulk store, and
the frame of a bulk load. -/

namespace Sys2Proof.Machine

open Sys2Proof.Claims

@[simp] theorem advancedPointer_toNat (i : Word) (x : Nibble) :
    (advancedPointer i x).toNat = (i.toNat + x.toNat + 1) % 65536 := by
  have hx : (x.setWidth 16).toNat = x.toNat := BitVec.toNat_setWidth_of_le (by decide)
  rw [advancedPointer, BitVec.toNat_add, BitVec.toNat_add, hx]
  exact Nat.mod_add_mod _ _ _

/-- At most sixteen bytes are stored, so no later one lands on an earlier one (44_memory_transfer R132). -/
theorem State.readByte_writeBytes_lowRegs_inside (s : State) (addr : Nat) {x j : Nibble} (hj : j.toNat ≤ x.toNat) :
    (s.writeBytes addr (s.lowRegs x)).readByte (addr + j.toNat) = s.getV j := by
  have hx := x.isLt
  have hlen := s.lowRegs_length x
  rw [State.readByte_writeBytes_inside s addr j.toNat _ (by omega) (by omega)]
  exact s.lowRegs_getD x j hj

theorem State.readByte_writeBytes_lowRegs_outside (s : State) (addr : Nat) {a : Nat} {x : Nibble}
    (ha : ∀ j : Nibble, j.toNat ≤ x.toNat → a % 4096 ≠ (addr + j.toNat) % 4096) :
    (s.writeBytes addr (s.lowRegs x)).readByte a = s.readByte a := by
  refine State.readByte_writeBytes_outside s addr a _ fun j hj => ?_
  rw [State.lowRegs_length] at hj
  have hx := x.isLt
  have hnibble : (BitVec.ofNat 4 j).toNat = j := Nat.mod_eq_of_lt (by omega)
  have hne := ha (BitVec.ofNat 4 j) (by omega)
  rwa [hnibble] at hne

theorem onlyRegs_loadLowRegs (s : State) (base : Nat) (x : Nibble) : OnlyRegs s (s.loadLowRegs base x) :=
  ⟨rfl, State.readByte_congr (State.loadLowRegs_mem s base x)⟩

end Sys2Proof.Machine
end

section
/-! PROOFS. The obligations about the bulk transfers. -/

namespace Sys2Proof.Proofs

open Sys2Proof.Machine Sys2Proof.Claims

/-- Settles O50: `V0..Vx` written as one run of bytes, read back inside and outside the run, and then a write of `I`. -/
theorem bulkStoreWritesTheLowRegisters : Obligations.BulkStoreWritesTheLowRegisters := by
  unfold Obligations.BulkStoreWritesTheLowRegisters
  intro x s
  have hframe := s.writeBytes_eq s.pointer (s.lowRegs x)
  exact ⟨spells_encode (i := .storeRegs x) rfl, _, rfl,
    fun _ => State.readByte_writeBytes_lowRegs_inside s s.pointer,
    fun _ => State.readByte_writeBytes_lowRegs_outside s s.pointer,
    advancedPointer_toNat s.i x, congrArg (State.setI · (advancedPointer s.i x)) hframe⟩

/-- Settles O51: the registers after a bulk load, which changes nothing else, and then a write of `I`. The loaded state is
generalized so that nothing compares its register file with the one before by evaluating both. -/
theorem bulkLoadReadsTheLowRegisters : Obligations.BulkLoadReadsTheLowRegisters := by
  unfold Obligations.BulkLoadReadsTheLowRegisters
  intro x s
  have hregs := State.getV_loadLowRegs s s.pointer x
  obtain ⟨hframe, hmem⟩ := onlyRegs_loadLowRegs s s.pointer x
  refine ⟨spells_encode (i := .loadRegs x) rfl, (s.loadLowRegs s.pointer x).setI (advancedPointer s.i x), rfl, ?_⟩
  generalize s.loadLowRegs s.pointer x = t at hregs hframe hmem ⊢
  exact ⟨hregs, advancedPointer_toNat s.i x, congrArg (State.setI · (advancedPointer s.i x)) hframe, hmem⟩

end Sys2Proof.Proofs
end

section
/-! PROOFS. The obligations about the display (45_display). -/

namespace Sys2Proof.Proofs

open Sys2Proof.Machine Sys2Proof.Claims

/-- Settles O53: the cleared framebuffer replaces `FB`, and no memory byte depends on `FB`. -/
theorem clearTurnsEveryCellOff : Obligations.ClearTurnsEveryCellOff := by
  unfold Obligations.ClearTurnsEveryCellOff
  exact ⟨spells_encode (i := .cls) rfl, fun s =>
    ⟨{ s with fb := Framebuffer.clear }, rfl, Framebuffer.cell_clear, rfl, fun _ => rfl⟩⟩

end Sys2Proof.Proofs
end

section
/-! PROOFS. What the input instructions do (46_input): the key a byte names. -/

namespace Sys2Proof.Machine

/-- The low nibble alone names the key (46_input R145). -/
@[simp] theorem keyIndex_toNat (b : Byte) : (keyIndex b).toNat = b.toNat % 16 := BitVec.toNat_setWidth 4 b

theorem eq_keyIndex {key : Nibble} {b : Byte} (h : key.toNat = b.toNat % 16) : key = keyIndex b :=
  BitVec.eq_of_toNat_eq (h.trans (keyIndex_toNat b).symm)

end Sys2Proof.Machine
end

section
/-! PROOFS. The obligations about the input instructions. -/

namespace Sys2Proof.Proofs

open Sys2Proof.Machine Sys2Proof.Claims

/-- Settles O56: both are skips on the level of the one key with that number. -/
theorem keySkipsTestTheLevel : Obligations.KeySkipsTestTheLevel := by
  unfold Obligations.KeySkipsTestTheLevel
  intro x s
  refine ⟨spells_encode (i := .skp x) rfl, spells_encode (i := .sknp x) rfl, fun key hkey => ?_⟩
  obtain rfl : key = keyIndex (s.getV x) := eq_keyIndex hkey
  exact ⟨exec_skips rfl Iff.rfl, exec_skips rfl (Bool.not_eq_true' _).to_iff⟩

end Sys2Proof.Proofs
end

section
/-! PROOFS. The obligations about the timer instructions (47_timers). -/

namespace Sys2Proof.Proofs

open Sys2Proof.Machine Sys2Proof.Claims

/-- Settles O58: a write of one register. -/
theorem readDelayTimerIntoVx : Obligations.ReadDelayTimerIntoVx := by
  unfold Obligations.ReadDelayTimerIntoVx
  exact fun x s => ⟨spells_encode (i := .ldVxDt x) rfl, _, rfl, State.getV_setV_same s x s.dt,
    otherRegsSame_setV s x s.dt, onlyRegs_setV s x s.dt⟩

/-- Settles O59: each replaces one timer by the register, and no memory byte depends on a timer. -/
theorem timerWritesSetTheTimers : Obligations.TimerWritesSetTheTimers := by
  unfold Obligations.TimerWritesSetTheTimers
  intro x s
  refine ⟨spells_encode (i := .ldDtVx x) rfl, spells_encode (i := .ldStVx x) rfl, ?_, ?_⟩
  · exact ⟨{ s with dt := s.getV x }, rfl, rfl, rfl, fun _ => rfl⟩
  · exact ⟨{ s with st := s.getV x }, rfl, rfl, rfl, fun _ => rfl⟩

end Sys2Proof.Proofs
end

section
/-! PROOFS. The Unknown word (60_exceptions R163): the tag the decoder gives it, and the step that records it. -/

namespace Sys2Proof

section
variable {w v : Word}

/-- The Unknown tag carries the word itself (R82). -/
theorem eq_of_decodeWord_unknown (h : decodeWord w = .unknown v) : v = w := by
  have hfits : (decodeWord w).Fits w := decodeWordWith_fits _ w
  rwa [h] at hfits

end

namespace Machine

/-- The instruction step on an Unknown word: `raise` at the advanced `PC`, and the slot counted. -/
theorem step_of_unknown {s : State} {w : Word} (hf : s.fetching = true) (h : decodeWord s.fetchWord = .unknown w) :
    step s = .next { s with pc := s.pc + 2, err := s.err ++ [.unknown w], slot := s.slot + 1 } := by
  rw [step_of_fetching hf, h]
  rfl

end Machine

end Sys2Proof
end

section
/-! PROOFS. The obligation about the Unknown word. -/

namespace Sys2Proof.Proofs

open Sys2Proof.Machine

/-- Settles O10: the state fetches, the word is its own tag, and no memory byte depends on `PC`, `ERR` or `SLOT`. -/
theorem unknownWordIsRecordedAndSteppedOver : Obligations.UnknownWordIsRecordedAndSteppedOver := by
  unfold Obligations.UnknownWordIsRecordedAndSteppedOver
  intro s w hphase hrun hslot hdecode
  have hf : s.fetching = true := s.fetching_iff.2 ⟨hphase, hrun, hslot⟩
  obtain rfl : w = s.fetchWord := eq_of_decodeWord_unknown hdecode
  exact ⟨_, step_of_unknown hf hdecode, rfl, BitVec.toNat_add _ _, rfl, fun _ => rfl⟩

end Sys2Proof.Proofs
end

section
/-! PROOFS. An instruction and its word determine each other (30_encoding R79, R80): on the bytes of a stream, and back from a word
read. -/

namespace Sys2Proof

/-- With the parameter BNNN_ENABLED at its default no instruction is refused (R80, D6). -/
theorem wellFormed_eq_true (i : Instr) : wellFormed i = true := by
  cases i <;> rfl

/-- The decoder on a stream that begins with the two bytes of an instruction. -/
theorem decode_encodeBytes {i : Instr} (h : wellFormed i = true) (rest : List Byte) :
    decode (encodeBytes i ++ rest) = .ok (i, rest) := by
  have hword : wordOfBytes (bytesOfWord (encode i)).1 (bytesOfWord (encode i)).2 = encode i :=
    Machine.bytesOfWord_append (encode i)
  have hdecode : decodeWord (encode i) = .instr i := Claims.spells_encode h
  simp only [encodeBytes, List.cons_append, List.nil_append, decode, hword, hdecode]

section
variable {w : Word} {op : Nibble}

/-! ### A word from its fields, the known ones as literals -/

theorem append_fieldNNN (hop : fieldOp w = op) : (op ++ fieldNNN w : Word) = w := by
  rw [← hop]; exact word_nnn w

theorem append_fieldX_fieldKK (hop : fieldOp w = op) : (op ++ fieldX w ++ fieldKK w : Word) = w := by
  rw [← hop]; exact word_xkk w

theorem append_fieldX_kk {kk : Byte} (hop : fieldOp w = op) (hkk : fieldKK w = kk) :
    (op ++ fieldX w ++ kk : Word) = w := by
  rw [← hkk]; exact append_fieldX_fieldKK hop

theorem append_fieldX_fieldY_fieldN (hop : fieldOp w = op) : (op ++ fieldX w ++ fieldY w ++ fieldN w : Word) = w := by
  rw [← hop]; exact word_xyn w

theorem append_fieldX_fieldY_n {n : Nibble} (hop : fieldOp w = op) (hn : fieldN w = n) :
    (op ++ fieldX w ++ fieldY w ++ n : Word) = w := by
  rw [← hn]; exact append_fieldX_fieldY_fieldN hop

/-- The instructions by their format (R77): the row of the map gives the fixed fields of the word, and what the decoder answers
for those is made of the other fields. -/
theorem encode_of_decodeWord {i : Instr} (h : decodeWord w = .instr i) : encode i = w := by
  have hrow := inRowOf_of_decodeWord h
  cases i
  case cls | ret => exact hrow.symm.trans (BitVec.and_allOnes (x := w))
  case jp nnn | call nnn | ldI nnn | jpV0 nnn =>
    have hop := fieldOp_of_and_F000 hrow
    simp only [opcodeRow, BitVec.reduceExtractLsb'] at hop
    obtain rfl : fieldNNN w = nnn := by simpa [decodeWord, decodeWordWith, hop, Config.bnnnEnabled] using h
    exact append_fieldNNN hop
  case seImm x kk | sneImm x kk | ldImm x kk | addImm x kk | rnd x kk =>
    have hop := fieldOp_of_and_F000 hrow
    simp only [opcodeRow, BitVec.reduceExtractLsb'] at hop
    obtain ⟨rfl, rfl⟩ : fieldX w = x ∧ fieldKK w = kk := by simpa [decodeWord, decodeWordWith, hop] using h
    exact append_fieldX_fieldKK hop
  case drw x y n =>
    have hop := fieldOp_of_and_F000 hrow
    simp only [opcodeRow, BitVec.reduceExtractLsb'] at hop
    obtain ⟨rfl, rfl, rfl⟩ : fieldX w = x ∧ fieldY w = y ∧ fieldN w = n :=
      by simpa [decodeWord, decodeWordWith, hop] using h
    exact append_fieldX_fieldY_fieldN hop
  case seReg x y | sneReg x y =>
    obtain ⟨hop, hn⟩ := fields_of_and_F00F hrow
    simp only [opcodeRow, BitVec.reduceExtractLsb'] at hop hn
    obtain ⟨rfl, rfl⟩ : fieldX w = x ∧ fieldY w = y := by simpa [decodeWord, decodeWordWith, hop, hn] using h
    exact append_fieldX_fieldY_n hop hn
  case ldReg x y | orReg x y | andReg x y | xorReg x y | addReg x y | subReg x y | shr x y | subnReg x y | shl x y =>
    obtain ⟨hop, hn⟩ := fields_of_and_F00F hrow
    simp only [opcodeRow, BitVec.reduceExtractLsb'] at hop hn
    obtain ⟨rfl, rfl⟩ : fieldX w = x ∧ fieldY w = y :=
      by simpa [decodeWord, decodeWordWith_op8, hop, decodeFamily8, hn] using h
    exact append_fieldX_fieldY_n hop hn
  case skp x | sknp x =>
    obtain ⟨hop, hkk⟩ := fields_of_and_F0FF hrow
    simp only [opcodeRow, BitVec.reduceExtractLsb'] at hop hkk
    obtain rfl : fieldX w = x := by simpa [decodeWord, decodeWordWith_opE, hop, decodeFamilyE, hkk] using h
    exact append_fieldX_kk hop hkk
  case ldVxDt x | ldVxK x | ldDtVx x | ldStVx x | addIVx x | ldFVx x | ldBVx x | storeRegs x | loadRegs x =>
    obtain ⟨hop, hkk⟩ := fields_of_and_F0FF hrow
    simp only [opcodeRow, BitVec.reduceExtractLsb'] at hop hkk
    obtain rfl : fieldX w = x := by simpa [decodeWord, decodeWordWith_opF, hop, decodeFamilyF, hkk] using h
    exact append_fieldX_kk hop hkk

end

end Sys2Proof
end

section
/-! PROOFS. The Unknown space (30_encoding R82): which words each family leaves without an instruction. -/

namespace Sys2Proof

section
variable {w : Word}

theorem fieldOp_eq_iff {op : Nibble} : fieldOp w = op ↔ w.toNat / 4096 = op.toNat := by
  rw [← BitVec.toNat_inj, fieldOp_toNat]

theorem fieldN_eq_iff {n : Nibble} : fieldN w = n ↔ w.toNat % 16 = n.toNat := by
  rw [← BitVec.toNat_inj, fieldN_toNat]

theorem fieldKK_eq_iff {kk : Byte} : fieldKK w = kk ↔ w.toNat % 256 = kk.toNat := by
  rw [← BitVec.toNat_inj, fieldKK_toNat]

theorem decodeFamily0_eq_unknown_iff : decodeFamily0 w = .unknown w ↔ w.toNat ≠ 0x00E0 ∧ w.toNat ≠ 0x00EE := by
  have hcls : w = 0x00E0#16 ↔ w.toNat = 0x00E0 := BitVec.toNat_inj.symm
  have hret : w = 0x00EE#16 ↔ w.toNat = 0x00EE := BitVec.toNat_inj.symm
  unfold decodeFamily0
  split_ifs with h1 h2
  · simp [hcls.1 h1]
  · simp [hret.1 h2]
  · simp [mt hcls.2 h1, mt hret.2 h2]

theorem decodeFamily8_eq_unknown_iff :
    decodeFamily8 w = .unknown w ↔ w.toNat % 16 ∈ [8, 9, 0xA, 0xB, 0xC, 0xD, 0xF] := by
  obtain h | h | h | h | h | h | h | h | h | h | h | h | h | h | h | h := nibble_cases (fieldN w) <;>
    simp [decodeFamily8, h, fieldN_eq_iff.1 h]

theorem decodeFamilyE_eq_unknown_iff :
    decodeFamilyE w = .unknown w ↔ w.toNat % 256 ≠ 0x9E ∧ w.toNat % 256 ≠ 0xA1 := by
  simp only [decodeFamilyE, fieldKK_eq_iff]
  split_ifs <;> simp_all

theorem decodeFamilyF_eq_unknown_iff :
    decodeFamilyF w = .unknown w ↔ w.toNat % 256 ∉ [0x07, 0x0A, 0x15, 0x18, 0x1E, 0x29, 0x33, 0x55, 0x65] := by
  simp only [decodeFamilyF, fieldKK_eq_iff]
  split_ifs <;> simp_all

end

end Sys2Proof
end

section
/-! PROOFS. The obligations about the encoding. -/

namespace Sys2Proof.Proofs

open Sys2Proof.Claims

/-- Settles O2: on the word by the decoder's agreement with `encode`, on the stream by the two bytes of that word. -/
theorem decodeOfEncodeIsTheInstruction : Obligations.DecodeOfEncodeIsTheInstruction := by
  unfold Obligations.DecodeOfEncodeIsTheInstruction
  exact fun _ rest h => ⟨spells_encode h, decode_encodeBytes h rest⟩

/-- Settles O3: the fields read from a word, put back by the format, are the word. -/
theorem encodeOfDecodeIsTheWord : Obligations.EncodeOfDecodeIsTheWord := by
  unfold Obligations.EncodeOfDecodeIsTheWord
  exact fun _ i h => ⟨encode_of_decodeWord h, wellFormed_eq_true i⟩

/-- Settles O5: the families by their leading nibble, each with the words it leaves without an instruction. -/
theorem unknownWordsAreExactlyTheListed : Obligations.UnknownWordsAreExactlyTheListed := by
  unfold Obligations.UnknownWordsAreExactlyTheListed
  intro bnnn w
  obtain h | h | h | h | h | h | h | h | h | h | h | h | h | h | h | h := nibble_cases (fieldOp w) <;>
    simp [decodeWordWith, h, fieldOp_eq_iff.1 h, decodeFamily0_eq_unknown_iff, fieldN_eq_iff,
      decodeFamily8_eq_unknown_iff, decodeFamilyE_eq_unknown_iff, decodeFamilyF_eq_unknown_iff]

/-- Settles O1: the decoder computes on each word. -/
theorem sampleWordsDecode : Obligations.SampleWordsDecode := by
  unfold Obligations.SampleWordsDecode Spells
  decide

end Sys2Proof.Proofs
end

section
/-! PROOFS. What an instruction writes, read from the "written by" column of 10_state R20: one frame equation for all of `exec`, and
from it what each piece of the state can have been changed by. -/

namespace Sys2Proof.Machine

/-- The pieces of the state that some instruction writes (10_state R20). -/
inductive Piece where
  | mem | v | i | pc | sp | stk | dt | st | fb | run | waitx | err | drawCount
  deriving DecidableEq

end Sys2Proof.Machine

namespace Sys2Proof

open Machine

/-- The pieces an instruction may write beyond the default advance of `PC` (10_state R20). -/
def Instr.writes : Instr → List Piece
  | .cls => [.fb]
  | .ret => [.pc, .sp, .err]
  | .call _ => [.pc, .sp, .stk, .err]
  | .jp _ | .jpV0 _ => [.pc]
  | .seImm _ _ | .sneImm _ _ | .seReg _ _ | .sneReg _ _ | .skp _ | .sknp _ => [.pc]
  | .ldImm _ _ | .addImm _ _ | .ldReg _ _ | .orReg _ _ | .andReg _ _ | .xorReg _ _ | .addReg _ _ | .subReg _ _
  | .shr _ _ | .subnReg _ _ | .shl _ _ | .ldVxDt _ => [.v]
  | .ldI _ | .addIVx _ | .ldFVx _ => [.i]
  | .rnd _ _ => [.v, .drawCount]
  | .drw _ _ _ => [.fb, .v]
  | .ldVxK _ => [.run, .waitx]
  | .ldDtVx _ => [.dt]
  | .ldStVx _ => [.st]
  | .ldBVx _ => [.mem]
  | .storeRegs _ => [.mem, .i]
  | .loadRegs _ => [.v, .i]

end Sys2Proof

namespace Sys2Proof.Machine

/-- `s` with the listed pieces taken from `t`. -/
def State.withPieces (s : State) (ps : List Piece) (t : State) : State :=
  { s with
    mem := if .mem ∈ ps then t.mem else s.mem
    v := if .v ∈ ps then t.v else s.v
    i := if .i ∈ ps then t.i else s.i
    pc := if .pc ∈ ps then t.pc else s.pc
    sp := if .sp ∈ ps then t.sp else s.sp
    stk := if .stk ∈ ps then t.stk else s.stk
    dt := if .dt ∈ ps then t.dt else s.dt
    st := if .st ∈ ps then t.st else s.st
    fb := if .fb ∈ ps then t.fb else s.fb
    run := if .run ∈ ps then t.run else s.run
    waitx := if .waitx ∈ ps then t.waitx else s.waitx
    err := if .err ∈ ps then t.err else s.err
    drawCount := if .drawCount ∈ ps then t.drawCount else s.drawCount }

/-- Every instruction answers a next state, and it writes only its pieces (10_state R20). The state after a bulk load is generalized
so that nothing compares its register file with the one before by evaluating both. -/
theorem exec_writes (i : Instr) (s : State) : ∃ t, exec i s = .next t ∧ t = s.withPieces i.writes t := by
  cases i
  case call nnn =>
    obtain ⟨-, hpush⟩ | ⟨-, t, hpush, hframe, -, -⟩ := s.push_cases s.pc
    · exact ⟨_, exec_call_of_full nnn hpush, rfl⟩
    · exact ⟨_, exec_call_of_push nnn hpush, by rw [hframe]; rfl⟩
  case ret =>
    obtain ⟨-, hpop⟩ | ⟨-, a, t, hpop, hframe, -, -⟩ := s.pop_cases
    · exact ⟨_, exec_ret_of_empty hpop, rfl⟩
    · exact ⟨_, exec_ret_of_pop hpop, by rw [hframe]; rfl⟩
  case ldBVx x => exact ⟨_, rfl, State.writeBytes_eq _ _ _⟩
  case storeRegs x =>
    exact ⟨_, rfl, congrArg (State.setI · (advancedPointer s.i x)) (State.writeBytes_eq _ _ _)⟩
  case loadRegs x =>
    obtain ⟨hframe, -⟩ := onlyRegs_loadLowRegs s s.pointer x
    refine ⟨(s.loadLowRegs s.pointer x).setI (advancedPointer s.i x), rfl, ?_⟩
    generalize s.loadLowRegs s.pointer x = t at hframe ⊢
    exact congrArg (State.setI · (advancedPointer s.i x)) hframe
  case seImm | sneImm | seReg | sneReg | skp | sknp => exact ⟨_, rfl, (onlyPc_skipIf s _).1⟩
  all_goals exact ⟨_, rfl, rfl⟩

section
variable {i : Instr} {s t u : State} {ps : List Piece}

theorem exec_answers (i : Instr) (s : State) : ∃ t, exec i s = .next t := by
  obtain ⟨t, h, -⟩ := exec_writes i s
  exact ⟨t, h⟩

theorem eq_withPieces_of_exec (h : exec i s = .next t) : t = s.withPieces i.writes t := by
  obtain ⟨u, hu, hframe⟩ := exec_writes i s
  obtain rfl : u = t := Host.Outcome.next.inj (hu.symm.trans h)
  exact hframe

/-! ### A piece not written is as before -/

theorem exec_keeps_mem (h : exec i s = .next t) (hp : .mem ∉ i.writes) : t.mem = s.mem :=
  (congrArg State.mem (eq_withPieces_of_exec h)).trans (if_neg hp)

theorem exec_keeps_v (h : exec i s = .next t) (hp : .v ∉ i.writes) : t.v = s.v :=
  (congrArg State.v (eq_withPieces_of_exec h)).trans (if_neg hp)

theorem exec_keeps_pc (h : exec i s = .next t) (hp : .pc ∉ i.writes) : t.pc = s.pc :=
  (congrArg State.pc (eq_withPieces_of_exec h)).trans (if_neg hp)

theorem exec_keeps_sp (h : exec i s = .next t) (hp : .sp ∉ i.writes) : t.sp = s.sp :=
  (congrArg State.sp (eq_withPieces_of_exec h)).trans (if_neg hp)

theorem exec_keeps_stk (h : exec i s = .next t) (hp : .stk ∉ i.writes) : t.stk = s.stk :=
  (congrArg State.stk (eq_withPieces_of_exec h)).trans (if_neg hp)

theorem exec_keeps_dt (h : exec i s = .next t) (hp : .dt ∉ i.writes) : t.dt = s.dt :=
  (congrArg State.dt (eq_withPieces_of_exec h)).trans (if_neg hp)

theorem exec_keeps_st (h : exec i s = .next t) (hp : .st ∉ i.writes) : t.st = s.st :=
  (congrArg State.st (eq_withPieces_of_exec h)).trans (if_neg hp)

theorem exec_keeps_err (h : exec i s = .next t) (hp : .err ∉ i.writes) : t.err = s.err :=
  (congrArg State.err (eq_withPieces_of_exec h)).trans (if_neg hp)

/-! ### Who writes a piece -/

theorem dt_mem_writes_iff : .dt ∈ i.writes ↔ ∃ x, i = .ldDtVx x := by
  cases i <;> simp [Instr.writes]

theorem st_mem_writes_iff : .st ∈ i.writes ↔ ∃ x, i = .ldStVx x := by
  cases i <;> simp [Instr.writes]

theorem mem_mem_writes_iff : .mem ∈ i.writes ↔ (∃ x, i = .storeRegs x) ∨ ∃ x, i = .ldBVx x := by
  cases i <;> simp [Instr.writes]

theorem sp_mem_writes_iff : .sp ∈ i.writes ↔ (∃ nnn, i = .call nnn) ∨ i = .ret := by
  cases i <;> simp [Instr.writes]

theorem stk_mem_writes_iff : .stk ∈ i.writes ↔ ∃ nnn, i = .call nnn := by
  cases i <;> simp [Instr.writes]

theorem err_mem_writes_iff : .err ∈ i.writes ↔ (∃ nnn, i = .call nnn) ∨ i = .ret := by
  cases i <;> simp [Instr.writes]

theorem pc_mem_writes_iff : .pc ∈ i.writes ↔
    i = .ret ∨ (∃ n, i = .jp n ∨ i = .call n ∨ i = .jpV0 n) ∨
    ∃ x, i = .skp x ∨ i = .sknp x ∨ (∃ kk, i = .seImm x kk ∨ i = .sneImm x kk) ∨ ∃ y, i = .seReg x y ∨ i = .sneReg x y := by
  cases i <;> simp [Instr.writes]

/-! ### What a written piece becomes -/

/-- `RET` lowers `SP` by one and no further than 0 (10_state R28). -/
theorem exec_ret_sp (h : exec .ret s = .next t) : t.sp.val = s.sp.val - 1 := by
  obtain ⟨hempty, hpop⟩ | ⟨-, a, u, hpop, -, hsp, -⟩ := s.pop_cases
  · obtain rfl := Host.Outcome.next.inj ((exec_ret_of_empty hpop).symm.trans h)
    exact hempty.trans (by rw [hempty])
  · obtain rfl := Host.Outcome.next.inj ((exec_ret_of_pop hpop).symm.trans h)
    exact hsp

/-- `CALL` raises `SP` by one and no further than 16, and fills no slot but the one at the old `SP` (10_state R28). -/
theorem exec_call_stack {nnn : Addr12} (h : exec (.call nnn) s = .next t) :
    t.sp.val = min 16 (s.sp.val + 1) ∧ ∀ j : Fin 16, j.val ≠ s.sp.val → t.stk[j] = s.stk[j] := by
  obtain ⟨hfull, hpush⟩ | ⟨hroom, u, hpush, -, hsp, hstk⟩ := s.push_cases s.pc
  · obtain rfl := Host.Outcome.next.inj ((exec_call_of_full nnn hpush).symm.trans h)
    exact ⟨by rw [State.raise_sp]; omega, fun _ _ => rfl⟩
  · obtain rfl := Host.Outcome.next.inj ((exec_call_of_push nnn hpush).symm.trans h)
    exact ⟨by rw [State.setPc_sp]; omega, fun j hj => (hstk j).trans (if_neg hj)⟩

/-- An instruction leaves the error log alone, or it is `raise` of a stack error and nothing else (60_exceptions R160). -/
theorem exec_err_cases (h : exec i s = .next t) :
    t.err = s.err ∨ ∃ e, e ≠ .programTooLarge ∧ t = s.raise e := by
  by_cases hp : .err ∈ i.writes
  case neg => exact .inl (exec_keeps_err h hp)
  obtain ⟨nnn, rfl⟩ | rfl := err_mem_writes_iff.1 hp
  · obtain ⟨-, hpush⟩ | ⟨-, u, hpush, hframe, -, -⟩ := s.push_cases s.pc
    · exact .inr ⟨.stackOverflow, nofun, Host.Outcome.next.inj (h.symm.trans (exec_call_of_full nnn hpush))⟩
    · obtain rfl := Host.Outcome.next.inj ((exec_call_of_push nnn hpush).symm.trans h)
      exact .inl (by rw [State.setPc_err, hframe])
  · obtain ⟨-, hpop⟩ | ⟨-, a, u, hpop, hframe, -, -⟩ := s.pop_cases
    · exact .inr ⟨.stackUnderflow, nofun, Host.Outcome.next.inj (h.symm.trans (exec_ret_of_empty hpop))⟩
    · obtain rfl := Host.Outcome.next.inj ((exec_ret_of_pop hpop).symm.trans h)
      exact .inl (by rw [State.setPc_err, hframe])

/-- An instruction that writes registers, but neither the flag nor `VF` by name, leaves `VF` alone (10_state R22). -/
theorem exec_keeps_VF (h : exec i s = .next t) (hflag : ¬ Claims.WritesFlag i) (hname : ¬ Claims.NamesVF i) :
    t.getV 15 = s.getV 15 := by
  cases i
  case addReg | subReg | shr | subnReg | shl | drw => exact absurd trivial hflag
  case ldImm x _ | addImm x _ | ldReg x _ | orReg x _ | andReg x _ | xorReg x _ | rnd x _ | ldVxDt x =>
    obtain rfl := Host.Outcome.next.inj h
    have hx : (15 : Nibble) ≠ x := Ne.symm hname
    exact (State.getV_setV _ x 15 _).trans (if_neg hx)
  case loadRegs x =>
    obtain rfl := Host.Outcome.next.inj h
    have hx : ¬ (15 : Nibble).toNat ≤ x.toNat := fun hle =>
      hname (BitVec.eq_of_toNat_eq (Nat.le_antisymm (Nat.le_of_lt_succ x.isLt) hle))
    rw [State.getV_congr (State.setI_v _ _), State.getV_loadLowRegs, if_neg hx]
  all_goals exact State.getV_congr (exec_keeps_v h (by simp [Instr.writes])) 15

/-- The canonical form of memory is kept: the two instructions that store do it byte by byte (20_memory R53). -/
theorem exec_keeps_wf (h : exec i s = .next t) (hwf : Memory.wf s.mem = true) : Memory.wf t.mem = true := by
  by_cases hp : .mem ∈ i.writes
  case neg => rwa [exec_keeps_mem h hp]
  obtain ⟨x, rfl⟩ | ⟨x, rfl⟩ := mem_mem_writes_iff.1 hp
  all_goals
    obtain rfl := Host.Outcome.next.inj h
    exact State.wf_writeBytes s _ _ hwf

end

end Sys2Proof.Machine
end

section
/-! PROOFS. The obligations about what instructions change and leave unchanged (10_state). -/

namespace Sys2Proof.Proofs

open Sys2Proof.Machine Sys2Proof.Claims

/-- Settles O20: each timer is a piece that one instruction writes. -/
theorem onlyTimerWritesChangeTimers : Obligations.OnlyTimerWritesChangeTimers := by
  unfold Obligations.OnlyTimerWritesChangeTimers
  intro i s t h
  exact ⟨fun hi => exec_keeps_dt h (mt dt_mem_writes_iff.1 (not_exists.2 hi)),
    fun hi => exec_keeps_st h (mt st_mem_writes_iff.1 (not_exists.2 hi))⟩

/-- Settles O21: the stack is written by `CALL` and `RET` alone; for those two, what a push and a pop do. -/
theorem onlyCallAndRetMoveTheStack : Obligations.OnlyCallAndRetMoveTheStack := by
  unfold Obligations.OnlyCallAndRetMoveTheStack
  intro i s t h
  refine ⟨fun hcall hret => ⟨exec_keeps_sp h ?_, exec_keeps_stk h ?_⟩, ?_, ?_⟩
  · rw [sp_mem_writes_iff]
    exact not_or.2 ⟨not_exists.2 hcall, hret⟩
  · rw [stk_mem_writes_iff]
    exact not_exists.2 hcall
  · rintro rfl
    exact ⟨exec_keeps_stk h (by decide), exec_ret_sp h⟩
  · rintro ⟨nnn, rfl⟩
    exact exec_call_stack h

/-- Settles O22: of the instructions that write registers, those left by the two exceptions write another one. -/
theorem onlyFlagWritersTouchVF : Obligations.OnlyFlagWritersTouchVF := by
  unfold Obligations.OnlyFlagWritersTouchVF
  exact fun _ _ _ => exec_keeps_VF

/-- Settles O23: memory is a piece that two instructions write. -/
theorem onlyTwoInstructionsStore : Obligations.OnlyTwoInstructionsStore := by
  unfold Obligations.OnlyTwoInstructionsStore
  intro i s t h hstore hbcd
  refine State.readByte_congr (exec_keeps_mem h ?_)
  rw [mem_mem_writes_iff]
  exact not_or.2 ⟨not_exists.2 hstore, not_exists.2 hbcd⟩

/-- Settles O24: `PC` is a piece that the jumps, call, return and the skips write. -/
theorem onlyControlFlowWritesPC : Obligations.OnlyControlFlowWritesPC := by
  unfold Obligations.OnlyControlFlowWritesPC
  intro i s t h hpc
  exact pc_mem_writes_iff.1 (by_contra fun hp => hpc (exec_keeps_pc h hp))

end Sys2Proof.Proofs
end

section
/-! PROOFS. What a step does, said once for each of its three kinds (60_exceptions R172): an instruction step by the frame of what it
executes, the end of a tick, and the input taken between ticks. -/

namespace Sys2Proof.Machine

open Sys2Proof.Claims

/-! ### Executing a decoded word -/

section
variable {op : Operation} {s t u : State} {ps : List Piece}

/-- A decoded word answers a next state and writes only pieces of R20; the model's bookkeeping and the key latch are no such piece. -/
theorem executeOp_writes (op : Operation) (s : State) :
    ∃ u ps, executeOp op s = .next u ∧ u = s.withPieces ps u := by
  cases op with
  | instr i =>
    obtain ⟨u, hu, hframe⟩ := exec_writes i s
    exact ⟨u, i.writes, hu, hframe⟩
  | unknown w => exact ⟨s.raise (.unknown w), [.err], rfl, rfl⟩

theorem executeOp_err_cases (h : executeOp op s = .next t) :
    t.err = s.err ∨ ∃ e, e ≠ .programTooLarge ∧ t = s.raise e := by
  cases op with
  | instr i => exact exec_err_cases h
  | unknown w => exact .inr ⟨.unknown w, nofun, (Host.Outcome.next.inj h).symm⟩

theorem executeOp_keeps_wf (h : executeOp op s = .next t) (hwf : Memory.wf s.mem = true) : Memory.wf t.mem = true := by
  cases op with
  | instr i => exact exec_keeps_wf h hwf
  | unknown w => obtain rfl := Host.Outcome.next.inj h; exact hwf

/-! ### The instruction step -/

/-- The state an instruction is executed in: `PC` already advanced (10_state R27). -/
theorem instructionStep_of_executeOp (h : executeOp (decodeWord s.fetchWord) { s with pc := s.pc + 2 } = .next u) :
    instructionStep s = .next { u with slot := u.slot + 1 } :=
  congrArg countSlot h

theorem step_eq_instructionStep (h : s.fetching = true) : step s = instructionStep s := if_pos h

/-- Everything an instruction step is, from the state it answers. -/
theorem instructionStep_cases (h : instructionStep s = .next t) :
    ∃ u, executeOp (decodeWord s.fetchWord) { s with pc := s.pc + 2 } = .next u ∧
      t = { u with slot := u.slot + 1 } := by
  obtain ⟨u, -, hu, -⟩ := executeOp_writes (decodeWord s.fetchWord) { s with pc := s.pc + 2 }
  exact ⟨u, hu, Host.Outcome.next.inj (h.symm.trans (instructionStep_of_executeOp hu))⟩

/-- What an instruction step leaves as it was, whatever the word: the key latch, the hand-out, and the driver's own fields but
`SLOT`. -/
theorem instructionStep_frame (h : instructionStep s = .next t) :
    t.k = s.k ∧ t.output = s.output ∧ t.inputs = s.inputs ∧ t.inputCount = s.inputCount ∧ t.phase = s.phase ∧
    t.loadable = s.loadable ∧ t.ipf = s.ipf ∧ t.slot = s.slot + 1 := by
  obtain ⟨u, ps, hu, hframe⟩ := executeOp_writes (decodeWord s.fetchWord) { s with pc := s.pc + 2 }
  obtain rfl := Host.Outcome.next.inj ((instructionStep_of_executeOp hu).symm.trans h)
  rw [hframe]
  exact ⟨rfl, rfl, rfl, rfl, rfl, rfl, rfl, rfl⟩

theorem instructionStep_answers (s : State) : ∃ t, instructionStep s = .next t := by
  obtain ⟨u, -, hu, -⟩ := executeOp_writes (decodeWord s.fetchWord) { s with pc := s.pc + 2 }
  exact ⟨_, instructionStep_of_executeOp hu⟩

/-- A step that is an instruction step, the end of a tick, or the application of an input between ticks. -/
theorem step_next_cases (h : step s = .next t) :
    (s.fetching = true ∧ instructionStep s = .next t) ∨
    (s.phase = .batch ∧ (s.run = .waitingForKey ∨ s.ipf ≤ s.slot) ∧ t = s.endTick) ∨
    (s.phase = .gap ∧ t = s.gapStep) := by
  obtain ⟨hf, hs⟩ | ⟨hp, hover, hs⟩ | ⟨hp, hs⟩ := step_cases s
  · exact .inl ⟨hf, hs.symm.trans h⟩
  · exact .inr (.inl ⟨hp, hover, Host.Outcome.next.inj (h.symm.trans hs)⟩)
  · exact .inr (.inr ⟨hp, Host.Outcome.next.inj (h.symm.trans hs)⟩)

theorem step_answers (s : State) : ∃ t, step s = .next t := by
  obtain ⟨-, hs⟩ | ⟨-, -, hs⟩ | ⟨-, hs⟩ := step_cases s
  · obtain ⟨t, ht⟩ := instructionStep_answers s
    exact ⟨t, hs.trans ht⟩
  · exact ⟨_, hs⟩
  · exact ⟨_, hs⟩

theorem fetching_of_batch (hphase : s.phase = .batch) (hrun : s.run = .running) (hslot : s.slot < s.ipf) :
    s.fetching = true := s.fetching_iff.2 ⟨hphase, hrun, hslot⟩

theorem step_of_batch_over (hphase : s.phase = .batch) (hover : s.run = .waitingForKey ∨ s.ipf ≤ s.slot) :
    step s = .next s.endTick := by
  obtain ⟨hf, -⟩ | ⟨-, -, hs⟩ | ⟨hp, -⟩ := step_cases s
  · obtain ⟨-, hrun, hslot⟩ := s.fetching_iff.1 hf
    obtain hw | hle := hover
    · exact nomatch hw.symm.trans hrun
    · exact absurd hle (Nat.not_le.2 hslot)
  · exact hs
  · exact nomatch hphase.symm.trans hp

/-! ### Between ticks -/

/-- The step between ticks applies some input, and taking it changes only the record of the inputs (60_exceptions R177). -/
theorem State.gapStep_cases (s : State) :
    ∃ e is n, s.gapStep = ({ s with inputs := is, inputCount := n } : State).applyInput e := by
  unfold State.gapStep State.takeInput
  cases s.inputs with
  | nil => exact ⟨_, _, _, rfl⟩
  | cons e rest => exact ⟨e, rest, s.inputCount, rfl⟩

theorem State.gapStep_of_delivered {e : Input} {rest : List Input} (h : s.inputs = e :: rest) :
    s.gapStep = ({ s with inputs := rest } : State).applyInput e := by
  simp only [State.gapStep, State.takeInput, h]

theorem State.gapStep_of_none_delivered (h : s.inputs = []) :
    s.gapStep = ({ s with inputs := [Config.input s.inputCount], inputCount := s.inputCount + 1 } : State).gapStep := by
  simp only [State.gapStep, State.takeInput, h]

/-- A step between ticks with an input delivered applies the oldest. -/
theorem step_of_delivered {e : Input} {rest : List Input} (hphase : s.phase = .gap) (h : s.inputs = e :: rest) :
    step s = .next (({ s with inputs := rest } : State).applyInput e) := by
  rw [step_of_gap hphase, State.gapStep_of_delivered h]

/-- A key event changes the latch, and with it at most the registers and `RUN` (60_exceptions R176). -/
theorem State.keyEvent_frame (s : State) (key : Nibble) (down : Bool) :
    s.keyEvent key down =
      { s with k := (s.keyEvent key down).k, v := (s.keyEvent key down).v, run := (s.keyEvent key down).run } := by
  obtain ⟨-, -, -, h⟩ | ⟨-, h⟩ := s.keyEvent_cases key down
  all_goals
    rw [h]
    rfl

/-- What a step between ticks leaves as it was, whatever the input (60_exceptions R176, R177). -/
theorem State.gapStep_keeps (s : State) :
    s.gapStep.pc = s.pc ∧ s.gapStep.i = s.i ∧ s.gapStep.sp = s.sp ∧ s.gapStep.stk = s.stk ∧ s.gapStep.fb = s.fb ∧
    s.gapStep.err = s.err ∧ SameMemory s s.gapStep ∧ s.gapStep.waitx = s.waitx := by
  obtain ⟨e, is, n, h⟩ := s.gapStep_cases
  rw [h]
  cases e with
  | key key down =>
    rw [State.applyInput, State.keyEvent_frame]
    exact ⟨rfl, rfl, rfl, rfl, rfl, rfl, fun _ => rfl, rfl⟩
  | tick => exact ⟨rfl, rfl, rfl, rfl, rfl, rfl, fun _ => rfl, rfl⟩

end

/-! ### A key event on each outcome -/

section
variable {s : State} {key : Nibble} {down : Bool}

theorem State.keyHeld_keyEvent (s : State) (key j : Nibble) (down : Bool) :
    (s.keyEvent key down).keyHeld j = if j = key then down else s.keyHeld j := by
  rw [← State.keyHeld_setKey]
  obtain ⟨-, -, -, h⟩ | ⟨-, h⟩ := s.keyEvent_cases key down
  · rw [h]
    rfl
  · rw [h]

/-- A key-down edge while the core waits: the key's code goes to `V[WAITX]`, and the core runs (60_exceptions R176). -/
theorem State.keyEvent_of_edge (h : s.run = .waitingForKey ∧ down = true ∧ s.keyHeld key = false) :
    ((s.keyEvent key down).getV s.waitx).toNat = key.toNat ∧ OtherRegsSame s (s.keyEvent key down) s.waitx ∧
    (s.keyEvent key down).run = .running := by
  obtain ⟨-, -, -, hevent⟩ | ⟨hno, -⟩ := s.keyEvent_cases key down
  case inr => exact absurd h hno
  have hregs : (s.keyEvent key down).v = (s.setV s.waitx (key.setWidth 8)).v := by rw [hevent]; rfl
  refine ⟨?_, fun j hj => ?_, by rw [hevent]⟩
  · rw [State.getV_congr hregs, State.getV_setV_same]
    exact BitVec.toNat_setWidth_of_le (by decide)
  · rw [State.getV_congr hregs]
    exact otherRegsSame_setV s s.waitx _ j hj

theorem State.keyEvent_of_no_edge (h : ¬ (s.run = .waitingForKey ∧ down = true ∧ s.keyHeld key = false)) :
    (s.keyEvent key down).v = s.v ∧ (s.keyEvent key down).run = s.run := by
  obtain ⟨hrun, hdown, hheld, -⟩ | ⟨-, hevent⟩ := s.keyEvent_cases key down
  · exact absurd ⟨hrun, hdown, hheld⟩ h
  · rw [hevent]
    exact ⟨rfl, rfl⟩

/-- A step between ticks from a waiting state: it still waits, or a key-down edge has ended the wait (10_state R33). -/
theorem State.gapStep_of_waiting (hwait : s.run = .waitingForKey) :
    (s.gapStep.run = .waitingForKey ∧ s.gapStep.v = s.v) ∨
    (s.gapStep.run = .running ∧ ∃ key : Nibble, s.keyHeld key = false ∧ s.gapStep.keyHeld key = true ∧
      (s.gapStep.getV s.waitx).toNat = key.toNat ∧ OtherRegsSame s s.gapStep s.waitx) := by
  obtain ⟨e, is, n, h⟩ := s.gapStep_cases
  let taken : State := { s with inputs := is, inputCount := n }
  rw [h]
  cases e with
  | tick => exact .inl ⟨hwait, rfl⟩
  | key key down =>
    by_cases hedge : taken.run = .waitingForKey ∧ down = true ∧ taken.keyHeld key = false
    · obtain ⟨hcode, hother, hrun⟩ := State.keyEvent_of_edge hedge
      obtain ⟨-, hdown, hheld⟩ := hedge
      have hnow : (taken.keyEvent key down).keyHeld key = true := by
        rw [State.keyHeld_keyEvent, if_pos rfl, hdown]
      exact .inr ⟨hrun, key, hheld, hnow, hcode, hother⟩
    · obtain ⟨hregs, hrun⟩ := State.keyEvent_of_no_edge hedge
      exact .inl ⟨hrun.trans hwait, hregs⟩

end

end Sys2Proof.Machine
end

section
/-! PROOFS. The invariant (10_state R35, 70_reset_and_hazards R196): what a step is made of keeps it. -/

namespace Sys2Proof.Machine

section
variable {s t : State}

/-- Inside a batch the load is over, so the part of the invariant about the boot window asks nothing. -/
theorem Inv.loadable_of_batch (hi : Inv s) (hphase : s.phase = .batch) : s.loadable = false := by
  by_contra h
  obtain ⟨hgap, -, -⟩ := hi.boot (Bool.not_eq_false _ ▸ h)
  exact nomatch hphase.symm.trans hgap

theorem Inv.instructionStep (hi : Inv s) (hf : s.fetching = true) (h : instructionStep s = .next t) : Inv t := by
  obtain ⟨hphase, -, hslot⟩ := s.fetching_iff.1 hf
  obtain ⟨-, -, -, -, -, hload, hipf, hcount⟩ := instructionStep_frame h
  obtain ⟨u, hu, rfl⟩ := instructionStep_cases h
  have hwf : Memory.wf u.mem = true := executeOp_keeps_wf hu hi.mem_wf
  refine ⟨hwf, ?_, ?_⟩
  · rw [hcount, hipf]
    exact hslot
  · rw [hload, hi.loadable_of_batch hphase]
    exact nofun

theorem Inv.endTick (hi : Inv s) (hphase : s.phase = .batch) : Inv s.endTick :=
  ⟨hi.mem_wf, hi.slot_le, fun h => nomatch (hi.loadable_of_batch hphase).symm.trans h⟩

theorem Inv.keyEvent (hi : Inv s) (key : Nibble) (down : Bool) : Inv (s.keyEvent key down) := by
  rw [State.keyEvent_frame]
  exact ⟨hi.mem_wf, hi.slot_le, hi.boot⟩

theorem Inv.startTick (hi : Inv s) : Inv s.startTick := ⟨hi.mem_wf, Nat.zero_le _, nofun⟩

theorem Inv.applyInput (hi : Inv s) (e : Input) : Inv (s.applyInput e) := by
  cases e with
  | key key down => exact hi.keyEvent key down
  | tick => exact hi.startTick

theorem Inv.gapStep (hi : Inv s) : Inv s.gapStep := by
  obtain ⟨e, is, n, h⟩ := s.gapStep_cases
  have htaken : Inv { s with inputs := is, inputCount := n } := ⟨hi.mem_wf, hi.slot_le, hi.boot⟩
  rw [h]
  exact htaken.applyInput e

theorem Inv.step (hi : Inv s) (h : step s = .next t) : Inv t := by
  obtain ⟨hf, hs⟩ | ⟨hphase, -, rfl⟩ | ⟨-, rfl⟩ := step_next_cases h
  · exact hi.instructionStep hf hs
  · exact hi.endTick hphase
  · exact hi.gapStep

theorem inv_reset : Inv State.reset := ⟨rfl, Nat.zero_le _, fun _ => ⟨rfl, rfl, rfl⟩⟩

theorem inv_hostReset (s : State) : Inv s.hostReset := ⟨rfl, Nat.zero_le _, fun _ => ⟨rfl, rfl, rfl⟩⟩

theorem Inv.deliver (hi : Inv s) (e : Input) : Inv (s.deliver e) := ⟨hi.mem_wf, hi.slot_le, hi.boot⟩

/-! ### Load on each outcome (70_reset_and_hazards R196) -/

variable {img : List Byte}

theorem load_of_not_loadable (h : s.loadable = false) : load img s = .refused .loadOutsideBoot := by
  simp [load, h]

theorem load_of_fits (h : s.loadable = true) (hfits : 0x200 + img.length ≤ 4096) :
    load img s = .next { s.writeBytes 0x200 img with loadable := false } := by
  rw [load, if_pos h]
  exact if_neg (Nat.not_lt.2 hfits)

theorem load_of_too_large (h : s.loadable = true) (hlarge : ¬ 0x200 + img.length ≤ 4096) :
    load img s = .next { s.raise .programTooLarge with loadable := false } := by
  rw [load, if_pos h]
  exact if_pos (Nat.not_le.1 hlarge)

theorem Inv.load (hi : Inv s) (h : load img s = .next t) : Inv t := by
  cases hload : s.loadable with
  | false => exact nomatch (load_of_not_loadable hload).symm.trans h
  | true =>
    by_cases hfits : 0x200 + img.length ≤ 4096
    · obtain rfl := Host.Outcome.next.inj ((load_of_fits hload hfits).symm.trans h)
      have hslot : (s.writeBytes 0x200 img).slot ≤ (s.writeBytes 0x200 img).ipf := by
        rw [State.writeBytes_eq]
        exact hi.slot_le
      exact ⟨s.wf_writeBytes _ img hi.mem_wf, hslot, nofun⟩
    · obtain rfl := Host.Outcome.next.inj ((load_of_too_large hload hfits).symm.trans h)
      exact ⟨hi.mem_wf, hi.slot_le, nofun⟩

end

end Sys2Proof.Machine
end

section
/-! PROOFS. The obligations about the invariant, reset and load. -/

namespace Sys2Proof.Proofs

open Sys2Proof.Machine Sys2Proof.Claims

/-- Settles O26: an instruction step, the end of a tick and a step between ticks each keep it. -/
theorem everyStepKeepsTheInvariant : Obligations.EveryStepKeepsTheInvariant := by
  unfold Obligations.EveryStepKeepsTheInvariant
  exact fun _ _ => Inv.step

/-- Settles O27: nothing is listed in memory, `SLOT` is 0, and the gap before the first tick holds no output. -/
theorem resetMeetsTheInvariant : Obligations.ResetMeetsTheInvariant := inv_reset

/-- Settles O28: a reset meets it from any state, a load and a delivery keep it. -/
theorem hostActsKeepTheInvariant : Obligations.HostActsKeepTheInvariant := by
  unfold Obligations.HostActsKeepTheInvariant
  intro a s t hi h
  cases a with
  | reset =>
    obtain rfl := Host.Outcome.next.inj h
    exact inv_hostReset s
  | load img => exact hi.load h
  | deliver e =>
    obtain rfl := Host.Outcome.next.inj h
    exact hi.deliver e

/-- Settles O30: the answer is `State.hostReset`, which takes every piece of the spec's state from `State.reset`. -/
theorem hostResetForgetsTheState : Obligations.HostResetForgetsTheState := by
  unfold Obligations.HostResetForgetsTheState
  exact fun s => ⟨s.hostReset, rfl, rfl, fun _ => rfl, State.getV_reset, rfl, rfl⟩

/-- Settles O31: the three outcomes of a load; the copied bytes are read back inside and outside the image. -/
theorem loadCopiesTheImageOrRecordsTooLarge : Obligations.LoadCopiesTheImageOrRecordsTooLarge := by
  unfold Obligations.LoadCopiesTheImageOrRecordsTooLarge
  intro img s
  split_ifs with hload hfits
  · exact load_of_not_loadable hload
  · refine ⟨_, load_of_fits (Bool.not_eq_false _ ▸ hload) hfits, fun j hj => ?_, fun a ha hout => ?_, ?_⟩
    · exact State.readByte_writeBytes_inside s 0x200 j img (by omega) hj
    · exact State.readByte_writeBytes_outside s 0x200 a img fun j hj => by omega
    · rw [State.writeBytes_eq]
  · exact ⟨_, load_of_too_large (Bool.not_eq_false _ ▸ hload) hfits, fun _ => rfl, rfl⟩

end Sys2Proof.Proofs
end

section
/-! PROOFS. The steps of one tick are the driver's loop (60_exceptions R172): a run of instruction steps is a batch. -/

namespace Sys2Proof.Machine

/-! ### Runs in parts -/

section
variable {M : Host.Core} {s t : M.State}

theorem run_succ_of_step (k : Nat) (h : M.step s = .next t) : M.run (k + 1) s = M.run k t := by
  simp only [Host.Core.run, h]

/-- A run goes on from where its first part ended. -/
theorem run_add_of_run {m : Nat} (k : Nat) (h : M.run m s = .next t) : M.run (m + k) s = M.run k t := by
  induction m generalizing s with
  | zero =>
    obtain rfl := Host.Outcome.next.inj h
    rw [Nat.zero_add]
  | succ m ih =>
    rw [Nat.succ_add]
    cases hs : M.step s with
    | next u =>
      rw [run_succ_of_step _ hs] at h ⊢
      exact ih h
    | fault r => simp [Host.Core.run, hs] at h
    | refused r => simp [Host.Core.run, hs] at h

end

/-- The batch from a state with `fuel` slots left: it answers, as many instruction steps lead to the same state, and they are all of
`fuel` unless the core then waits. -/
theorem runBatch_eq_run (fuel : Nat) (s : State) (hphase : s.phase = .batch) (hfuel : s.slot + fuel = s.ipf) :
    ∃ n t, n ≤ fuel ∧ runBatch fuel s = .next t ∧ Sys2Proof.core.run n s = .next t ∧ t.slot = s.slot + n ∧
      t.phase = .batch ∧ (t.run = .waitingForKey ∨ n = fuel ∧ t.ipf ≤ t.slot) := by
  induction fuel generalizing s with
  | zero => exact ⟨0, s, Nat.le_refl 0, rfl, rfl, rfl, hphase, .inr ⟨rfl, Nat.le_of_eq hfuel.symm⟩⟩
  | succ fuel ih =>
    cases hrun : s.run with
    | waitingForKey =>
      have hstop : runBatch (fuel + 1) s = .next s := by simp [runBatch, hrun]
      exact ⟨0, s, Nat.zero_le _, hstop, rfl, rfl, hphase, .inl hrun⟩
    | running =>
      have hslot : s.slot < s.ipf := by omega
      obtain ⟨u, hu⟩ := instructionStep_answers s
      have hstep : Sys2Proof.core.step s = .next u :=
        (step_eq_instructionStep (fetching_of_batch hphase hrun hslot)).trans hu
      have hloop : runBatch (fuel + 1) s = runBatch fuel u := by simp [runBatch, hrun, hslot, hu]
      obtain ⟨-, -, -, -, huphase, -, huipf, huslot⟩ := instructionStep_frame hu
      obtain ⟨n, t, hn, hbatch, hruns, htslot, htphase, hover⟩ := ih u (huphase.trans hphase) (by omega)
      refine ⟨n + 1, t, by omega, hloop.trans hbatch, (run_succ_of_step n hstep).trans hruns, by omega, htphase, ?_⟩
      exact hover.imp_right fun ⟨hall, hle⟩ => ⟨congrArg Nat.succ hall, hle⟩

end Sys2Proof.Machine
end

section
/-! PROOFS. The obligations about the cycle driver (60_exceptions). -/

namespace Sys2Proof.Proofs

open Sys2Proof.Machine Sys2Proof.Claims

/-- Settles O15: the step that takes the tick, the steps of the batch, and the step that ends the tick. -/
theorem stepsOfATickAreTheDriversLoop : Obligations.StepsOfATickAreTheDriversLoop := by
  unfold Obligations.StepsOfATickAreTheDriversLoop
  intro s rest hphase hinputs
  let started : State := ({ s with inputs := rest } : State).startTick
  have hstart : Sys2Proof.core.step s = .next started := step_of_delivered hphase hinputs
  obtain ⟨n, t, hn, hbatch, hruns, hslot, htphase, hover⟩ :=
    runBatch_eq_run s.ipf started rfl (Nat.zero_add _)
  have hend : Sys2Proof.core.step t = .next t.endTick :=
    step_of_batch_over htphase (hover.imp_right And.right)
  refine ⟨n, t.endTick, hn, ?_, ?_, hslot.trans (Nat.zero_add n), fun hrun => ?_, rfl, rfl⟩
  · have htick : runBatch ({ s with inputs := rest } : State).ipf started = .next t := hbatch
    simp only [tick, started, htick]
  · calc Sys2Proof.core.run (n + 1 + 1) s
      _ = Sys2Proof.core.run (n + 1) started := run_succ_of_step _ hstart
      _ = Sys2Proof.core.run 1 t := run_add_of_run 1 hruns
      _ = .next t.endTick := run_succ_of_step 0 hend
  · obtain hwait | ⟨hall, -⟩ := hover
    · exact nomatch hwait.symm.trans hrun
    · exact hall

/-- Settles O13: the input taken is the key event, which is a latch update and, on an edge while waiting, the end of the wait. -/
theorem keyEventUpdatesLatchAndResolvesWait : Obligations.KeyEventUpdatesLatchAndResolvesWait := by
  unfold Obligations.KeyEventUpdatesLatchAndResolvesWait
  intro s key down rest hphase hinputs
  let taken : State := { s with inputs := rest }
  have hframe := taken.keyEvent_frame key down
  refine ⟨taken.keyEvent key down, step_of_delivered hphase hinputs, ?_, fun j hj => ?_, ?_, hframe, ?_⟩
  · rw [State.keyHeld_keyEvent, if_pos rfl]
  · rw [State.keyHeld_keyEvent, if_neg hj]
    rfl
  · split_ifs with hedge
    · exact State.keyEvent_of_edge (s := taken) hedge
    · exact State.keyEvent_of_no_edge (s := taken) hedge
  · exact State.readByte_congr (by rw [hframe])

/-- Settles O16: the frame of `exec` gives its next state, and the kinds of a step give the step's. -/
theorem machineNeverStops : Obligations.MachineNeverStops := by
  unfold Obligations.MachineNeverStops
  exact ⟨step_answers, exec_answers⟩

/-- Settles O17: only what an instruction step executes reaches the error log, and that is then `raise` and nothing else. -/
theorem errorLogGrowsByAtMostOneRecord : Obligations.ErrorLogGrowsByAtMostOneRecord := by
  unfold Obligations.ErrorLogGrowsByAtMostOneRecord
  intro s t h
  obtain ⟨hf, hs⟩ | ⟨-, -, rfl⟩ | ⟨-, rfl⟩ := step_next_cases h
  · obtain ⟨hphase, hrun, hslot⟩ := s.fetching_iff.1 hf
    obtain ⟨u, hu, rfl⟩ := instructionStep_cases hs
    obtain herr | ⟨e, he, rfl⟩ := executeOp_err_cases hu
    · exact ⟨.inl herr, fun hne => absurd herr hne⟩
    · exact ⟨.inr ⟨e, rfl, he⟩, fun _ => ⟨hphase, hrun, hslot, rfl, fun _ => rfl⟩⟩
  · exact ⟨.inl rfl, fun hne => absurd rfl hne⟩
  · obtain ⟨-, -, -, -, -, herr, -, -⟩ := s.gapStep_keeps
    exact ⟨.inl herr, fun hne => absurd herr hne⟩

/-- Settles O18: a waiting core does not fetch, the end of a tick leaves it waiting, and of the inputs only a key-down edge ends
the wait. -/
theorem waitLastsUntilAKeyDownEdge : Obligations.WaitLastsUntilAKeyDownEdge := by
  unfold Obligations.WaitLastsUntilAKeyDownEdge
  intro s t hwait h
  obtain ⟨hf, -⟩ | ⟨-, -, rfl⟩ | ⟨hphase, rfl⟩ := step_next_cases h
  · obtain ⟨-, hrun, -⟩ := s.fetching_iff.1 hf
    exact nomatch hwait.symm.trans hrun
  · exact ⟨rfl, rfl, rfl, rfl, rfl, rfl, fun _ => rfl, rfl, .inl ⟨hwait, rfl⟩⟩
  · obtain ⟨hpc, hi, hsp, hstk, hfb, herr, hmem, hwaitx⟩ := s.gapStep_keeps
    exact ⟨hpc, hi, hsp, hstk, hfb, herr, hmem, hwaitx,
      (State.gapStep_of_waiting hwait).imp_right fun ⟨hrun, hkey⟩ => ⟨hrun, hphase, hkey⟩⟩

/-- Settles O19: the frame of an instruction step. -/
theorem latchAndOutputsAreFixedInABatch : Obligations.LatchAndOutputsAreFixedInABatch := by
  unfold Obligations.LatchAndOutputsAreFixedInABatch
  intro s t hphase hrun hslot h
  have hstep : instructionStep s = .next t :=
    (step_eq_instructionStep (fetching_of_batch hphase hrun hslot)).symm.trans h
  obtain ⟨hk, houtput, hinputs, hcount, htphase, -, hipf, htslot⟩ := instructionStep_frame hstep
  exact ⟨hk, houtput, hinputs, hcount, htphase.trans hphase, hipf, htslot⟩

/-- Settles O25: the jump writes back the `PC` that the default advance had moved. -/
theorem selfJumpChangesNothingButTheSlot : Obligations.SelfJumpChangesNothingButTheSlot := by
  unfold Obligations.SelfJumpChangesNothingButTheSlot
  rintro s hphase hrun hslot ⟨nnn, hpc, hword⟩
  have hdecode : decodeWord s.fetchWord = .instr (.jp nnn) := by
    rw [hword]
    exact spells_encode rfl
  rw [step_of_fetching (fetching_of_batch hphase hrun hslot), hdecode]
  show Host.Outcome.next { s with pc := addrImm nnn, slot := s.slot + 1 } = _
  rw [← hpc]

/-- Settles O9: the state fetches, and counting the slot is what the statement writes out. -/
theorem stepRunsTheDecodedInstruction : Obligations.StepRunsTheDecodedInstruction := by
  unfold Obligations.StepRunsTheDecodedInstruction
  intro s i hphase hrun hslot hspells
  rw [step_of_fetching (fetching_of_batch hphase hrun hslot), hspells]
  change countSlot (exec i { s with pc := s.pc + 2 }) = _
  cases exec i { s with pc := s.pc + 2 } <;> rfl

/-- Settles O11: the step is the end of the tick, whose decrements are subtractions of numbers. -/
theorem endOfTickDecrementsTimersAndHandsOut : Obligations.EndOfTickDecrementsTimersAndHandsOut := by
  unfold Obligations.EndOfTickDecrementsTimersAndHandsOut
  intro s hphase hover
  exact ⟨s.endTick, step_of_batch_over hphase hover, decrement_toNat s.dt, decrement_toNat s.st, rfl, rfl, fun _ => rfl⟩

/-- Settles O12: the input taken is the tick, which starts the batch. -/
theorem nextTickStartsItsBatch : Obligations.NextTickStartsItsBatch := by
  unfold Obligations.NextTickStartsItsBatch
  exact fun s rest hphase hinputs => ⟨_, step_of_delivered hphase hinputs, rfl, fun _ => rfl⟩

/-- Settles O14: both are steps between ticks, and the free input is taken as the delivered one is. -/
theorem undeliveredInputIsFree : Obligations.UndeliveredInputIsFree := by
  unfold Obligations.UndeliveredInputIsFree
  intro s hphase hinputs
  let delivered : State := { s with inputs := [Config.input s.inputCount], inputCount := s.inputCount + 1 }
  have hdelivered : delivered.phase = .gap := hphase
  calc step s
    _ = .next s.gapStep := step_of_gap hphase
    _ = .next delivered.gapStep := congrArg Host.Outcome.next (State.gapStep_of_none_delivered hinputs)
    _ = step delivered := (step_of_gap hdelivered).symm

end Sys2Proof.Proofs
end

section
/-! PROOFS. The fetched word as a number (20_memory R54), and the bytes a BCD store leaves (44_memory_transfer R134). -/

namespace Sys2Proof.Machine

/-- The byte at the lower address counts 256 times (20_memory R54). -/
theorem State.fetchWord_toNat (s : State) :
    s.fetchWord.toNat = (s.readByte s.pc.toNat).toNat * 256 + (s.readByte (s.pc.toNat + 1)).toNat :=
  toNat_append_eq _ _

/-- Addresses with one residue modulo 4096 name one cell (20_memory R59). -/
theorem State.readByte_of_mod_eq (s : State) {a b : Nat} (h : a % 4096 = b % 4096) : s.readByte a = s.readByte b := by
  rw [← State.readByte_mod, h, State.readByte_mod]

/-- Each digit fits a byte, so that no digit is cut. -/
theorem bcdDigits_getD_toNat (b : Byte) :
    ((bcdDigits b).getD 0 0).toNat = b.toNat / 100 ∧ ((bcdDigits b).getD 1 0).toNat = b.toNat / 10 % 10 ∧
    ((bcdDigits b).getD 2 0).toNat = b.toNat % 10 := by
  have hb := b.isLt
  refine ⟨?_, ?_, ?_⟩
  all_goals
    refine (BitVec.toNat_ofNat _ _).trans (Nat.mod_eq_of_lt ?_)
    omega

end Sys2Proof.Machine
end

section
/-! PROOFS. The obligations about memory (20_memory), BCD (44_memory_transfer), `RND` (43_random) and `LD Vx,K` (46_input). -/

namespace Sys2Proof.Proofs

open Sys2Proof.Machine Sys2Proof.Claims

/-- Settles O6: the law of a byte read after a byte written. -/
theorem byteStoreReachesItsCellOnly : Obligations.ByteStoreReachesItsCellOnly := by
  unfold Obligations.ByteStoreReachesItsCellOnly
  intro s addr b
  refine ⟨fun k => ?_, fun a ha => ?_, rfl⟩
  · rw [State.readByte_add_mul, State.readByte_writeByte, if_pos rfl]
  · rw [State.readByte_writeByte, if_neg ha]

/-- Settles O7: the word as a number, and the two addresses reduced each on its own. -/
theorem fetchIsBigEndianAndWraps : Obligations.FetchIsBigEndianAndWraps := by
  unfold Obligations.FetchIsBigEndianAndWraps
  refine fun s => ⟨s.fetchWord_toNat, fun hpc => ?_⟩
  have hhigh : s.readByte s.pc.toNat = s.readByte 0xFFF := s.readByte_of_mod_eq hpc
  have hlow : s.readByte (s.pc.toNat + 1) = s.readByte 0x000 := s.readByte_of_mod_eq (by omega)
  rw [s.fetchWord_toNat, hhigh, hlow]

/-- Settles O8: the two stored bytes read back at the two addresses of the fetch. -/
theorem storedBytesAreTheNextFetch : Obligations.StoredBytesAreTheNextFetch := by
  unfold Obligations.StoredBytesAreTheNextFetch
  intro s
  let stored : State := s.writeBytes s.pointer (s.lowRegs 1)
  have hhigh : stored.readByte s.i.toNat = s.getV 0 :=
    State.readByte_writeBytes_lowRegs_inside s s.pointer (x := 1) (j := 0) (by decide)
  have hlow : stored.readByte (s.i.toNat + 1) = s.getV 1 :=
    State.readByte_writeBytes_lowRegs_inside s s.pointer (x := 1) (j := 1) (by decide)
  refine ⟨stored.setI (advancedPointer s.i 1), rfl, ?_⟩
  rw [← hhigh, ← hlow]
  exact State.fetchWord_toNat _

/-- Settles O52: the three digits read back inside and outside the run of bytes stored. -/
theorem bcdStoresThreeDigits : Obligations.BcdStoresThreeDigits := by
  unfold Obligations.BcdStoresThreeDigits
  intro x s
  obtain ⟨hhundreds, htens, hones⟩ := bcdDigits_getD_toNat (s.getV x)
  have hread (j : Nat) (hj : j < 3) : (s.writeBytes s.pointer (bcdDigits (s.getV x))).readByte (s.i.toNat + j) =
      (bcdDigits (s.getV x)).getD j 0 :=
    State.readByte_writeBytes_inside s s.pointer j _ (by simp [bcdDigits]) hj
  refine ⟨spells_encode (i := .ldBVx x) rfl, _, rfl, ?_, ?_, ?_, ?_, State.writeBytes_eq _ _ _⟩
  · rw [← hhundreds, ← hread 0 (by decide), Nat.add_zero]
  · rw [← htens, ← hread 1 (by decide)]
  · rw [← hones, ← hread 2 (by decide)]
  · exact fun a ha => State.readByte_writeBytes_outside s s.pointer a _ ha

/-- Settles O49: a write of one register, the bits of the drawn byte under the mask. -/
theorem randomByteIsMasked : Obligations.RandomByteIsMasked := by
  unfold Obligations.RandomByteIsMasked
  intro x kk s
  refine ⟨spells_encode (i := .rnd x kk) rfl, _, rfl, fun b => ?_, otherRegsSame_setV s.drawByte.2 x _, rfl, fun _ => rfl⟩
  rw [State.getV_setV_same]
  exact BitVec.getLsbD_and

/-- Settles O57: the wait is armed in two fields, and no memory byte depends on them. -/
theorem waitForKeyArmsTheWait : Obligations.WaitForKeyArmsTheWait := by
  unfold Obligations.WaitForKeyArmsTheWait
  exact fun x s => ⟨spells_encode (i := .ldVxK x) rfl, { s with waitx := x, run := .waitingForKey }, rfl, rfl, rfl, rfl,
    fun _ => rfl⟩

end Sys2Proof.Proofs
end

section
/-! PROOFS. What `DRW` does (45_display R138, R139): the drawing of the sprite at `I` in terms of the cells its pixels land on. -/

namespace Sys2Proof.Machine

open Sys2Proof.Claims

/-- What `DRW Vx,Vy,n` draws: the new framebuffer, and whether a lit cell was hit. -/
def State.drawSprite (s : State) (x y n : Nibble) : Drawing :=
  drawRows (s.fb, false) (s.getV x).toNat (s.getV y).toNat (s.readBytes s.pointer n.toNat)

theorem exec_drw (x y n : Nibble) (s : State) :
    exec (.drw x y n) s =
      .next (({ s with fb := (s.drawSprite x y n).1 } : State).setFlag (s.drawSprite x y n).2) := rfl

section
variable {s t : State} {ox oy : Nat} {x y n : Nibble}

/-- What a draw changes, and the two things its landing pixels depend on, which it does not. -/
theorem exec_drw_effect (h : exec (.drw x y n) s = .next t) :
    t.fb = (s.drawSprite x y n).1 ∧ t.getV 15 = flagByte (s.drawSprite x y n).2 ∧ t.mem = s.mem ∧ t.i = s.i := by
  obtain rfl := Host.Outcome.next.inj ((exec_drw x y n s).symm.trans h)
  exact ⟨rfl, State.getV_setV_same _ _ _, rfl, rfl⟩

theorem spriteLength_le (s : State) (n : Nibble) : (s.readBytes s.pointer n.toNat).length ≤ 32 := by
  rw [State.readBytes_length]
  have hn := n.isLt
  omega

/-- A pixel of the byte list that lands on a cell is a pixel of memory at `I` that does. -/
theorem lands_iff {row col : Nat} (hrow : row < 32) (hcol : col < 64) :
    (∃ r < (s.readBytes s.pointer n.toNat).length, ∃ c < 8,
      spriteBit ((s.readBytes s.pointer n.toNat).getD r 0) c = true ∧ row % 32 = (oy + r) % 32 ∧
        col % 64 = (ox + c) % 64) ↔ Lands s ox oy n.toNat row col := by
  rw [State.readBytes_length, Nat.mod_eq_of_lt hrow, Nat.mod_eq_of_lt hcol]
  constructor
  · rintro ⟨r, hr, c, hc, hbit, hcell⟩
    rw [State.readBytes_getD s _ _ r hr] at hbit
    exact ⟨r, c, hr, hc, hbit, hcell⟩
  · rintro ⟨r, c, hr, hc, hbit, hcell⟩
    refine ⟨r, hr, c, hc, ?_, hcell⟩
    rwa [State.readBytes_getD s _ _ r hr]

/-- A cell is toggled exactly when a sprite pixel lands on it. -/
theorem State.drawSprite_cell (s : State) (x y n : Nibble) {row col : Nat} (hrow : row < 32) (hcol : col < 64) :
    ((s.drawSprite x y n).1.cell row col = true ↔
      ¬ (s.fb.cell row col = true ↔ Lands s (s.getV x).toNat (s.getV y).toNat n.toNat row col)) := by
  rw [← lands_iff hrow hcol]
  exact drawRows_cell _ (spriteLength_le s n) _ _ _ _ _

/-- A collision is a sprite pixel that lands on a lit cell. -/
theorem State.drawSprite_collision (s : State) (x y n : Nibble) :
    (s.drawSprite x y n).2 = true ↔ ∃ row col : Nat, row < 32 ∧ col < 64 ∧ s.fb.cell row col = true ∧
      Lands s (s.getV x).toNat (s.getV y).toNat n.toNat row col := by
  have hcell (r c : Nat) : s.fb.cell (r % 32) (c % 64) = s.fb.cell r c := by
    simp only [Framebuffer.cell, Nat.mod_mod]
  have hdraw := drawRows_collision (s.readBytes s.pointer n.toNat) (spriteLength_le s n) (s.fb, false)
    (s.getV x).toNat (s.getV y).toNat
  rw [State.readBytes_length] at hdraw
  refine hdraw.trans ⟨?_, ?_⟩
  · rintro (hfalse | ⟨r, hr, c, hc, hbit, hlit⟩)
    · exact nomatch hfalse
    · rw [State.readBytes_getD s _ _ r hr] at hbit
      exact ⟨_, _, Nat.mod_lt _ (by decide), Nat.mod_lt _ (by decide), (hcell _ _).trans hlit, r, c, hr, hc, hbit, rfl, rfl⟩
  · rintro ⟨row, col, -, -, hlit, r, c, hr, hc, hbit, rfl, rfl⟩
    refine .inr ⟨r, hr, c, hc, ?_, (hcell _ _).symm.trans hlit⟩
    rwa [State.readBytes_getD s _ _ r hr]

/-- Where a sprite lands depends on memory and `I` alone. -/
theorem lands_congr (hmem : t.mem = s.mem) (hi : t.i = s.i) {k row col : Nat} :
    Lands t ox oy k row col ↔ Lands s ox oy k row col := by
  simp only [Lands, State.readByte_congr hmem, hi]

end

end Sys2Proof.Machine
end

section
/-! PROOFS. The obligations about `DRW`. -/

namespace Sys2Proof.Proofs

open Sys2Proof.Machine Sys2Proof.Claims

/-- Settles O54: the drawing cell by cell, and its collision as the flag. -/
theorem drawXorsTheSpriteAndReportsCollision : Obligations.DrawXorsTheSpriteAndReportsCollision := by
  unfold Obligations.DrawXorsTheSpriteAndReportsCollision
  intro x y n s
  obtain ⟨-, hflag, -, -⟩ := exec_drw_effect (exec_drw x y n s)
  refine ⟨spells_encode (i := .drw x y n) rfl, _, exec_drw x y n s, fun _ _ => s.drawSprite_cell x y n, ?_, ?_,
    otherRegsSame_setV _ flagReg _, rfl, fun _ => rfl⟩
  · rw [hflag]
    exact flagByte_toNat_one_or_zero _
  · rw [hflag, flagByte_toNat_eq_one]
    exact s.drawSprite_collision x y n

/-- Settles O55: the second draw toggles the same cells back, and collides where the first one lit a cell. -/
theorem doubleDrawRestoresTheFramebuffer : Obligations.DoubleDrawRestoresTheFramebuffer := by
  unfold Obligations.DoubleDrawRestoresTheFramebuffer
  intro x y n s t u ht hx hy hu
  obtain ⟨htfb, -, htmem, hti⟩ := exec_drw_effect ht
  obtain ⟨hufb, huflag, -, -⟩ := exec_drw_effect hu
  have hlands (row col : Nat) : Lands t (t.getV x).toNat (t.getV y).toNat n.toNat row col ↔
      Lands s (s.getV x).toNat (s.getV y).toNat n.toNat row col := by
    rw [hx, hy]
    exact lands_congr htmem hti
  have hfirst {row col : Nat} (hrow : row < 32) (hcol : col < 64) : t.fb.cell row col = true ↔
      ¬ (s.fb.cell row col = true ↔ Lands s (s.getV x).toNat (s.getV y).toNat n.toNat row col) := by
    rw [htfb]
    exact s.drawSprite_cell x y n hrow hcol
  constructor
  · rw [hufb]
    refine Framebuffer.ext_cell fun row col hrow hcol => Bool.eq_iff_iff.2 ?_
    rw [t.drawSprite_cell x y n hrow hcol, hfirst hrow hcol, hlands]
    tauto
  · rw [huflag, flagByte_toNat_eq_one, t.drawSprite_collision]
    refine exists_congr fun row => exists_congr fun col => and_congr_right fun hrow => and_congr_right fun hcol => ?_
    rw [hfirst hrow hcol, hlands, ← Bool.not_eq_true]
    tauto

end Sys2Proof.Proofs
end
